-- ==== Sys2Proof/Word.lean ====
section
/-! DEFINITION. The word types of XDC (00_scope.md R10): bytes, 32-bit and 64-bit unsigned words.
All arithmetic of the spec is unsigned and wraps (R11), which is what `BitVec` does. -/

namespace Sys2Proof

/-- A u8 (R10). -/
abbrev Byte := BitVec 8

/-- A u32 (R10): a register, a command word, an image word. -/
abbrev Word := BitVec 32

/-- A u64 (R10): the checksum accumulator's sum and the SHA-1 length field. -/
abbrev DWord := BitVec 64

/-- The source buffer a command's SRC bit selects (30_encoding.md R81, R82): IN or OUT. -/
inductive Src where
  /-- SRC = 0: the buffer IN. -/
  | inBuf
  /-- SRC = 1: the buffer OUT. -/
  | outBuf
  deriving DecidableEq, Repr, Inhabited

end Sys2Proof
end

