-- ==== Sys2Proof/Machine/Bytes.lean ====
section
/-! DEFINITION. Byte strings (00_scope.md R12): slices, little-endian and big-endian words, and the rotate of R11. -/

namespace Sys2Proof

/-- The half-open slice `B[a..b)` (R12). -/
def slice (B : List Byte) (a b : Nat) : List Byte := (B.drop a).take (b - a)

/-- The little-endian value of up to four bytes, the first byte least significant (R12, 20_memory.md R53):
`le32` on four bytes, and the value of a 1- or 2-byte access. -/
def leValue : List Byte → Word
  | [] => 0
  | b :: bs => b.setWidth 32 ||| (leValue bs <<< 8)

/-- `LE32(v)`: the four bytes of a word, least significant first (R12). -/
def leBytes32 (v : Word) : List Byte :=
  [v.extractLsb' 0 8, v.extractLsb' 8 8, v.extractLsb' 16 8, v.extractLsb' 24 8]

/-- The big-endian value of four bytes, `be32` (R12): the first byte is the most significant. -/
def beValue (bs : List Byte) : Word := bs.foldl (fun acc b => (acc <<< 8) ||| b.setWidth 32) 0

/-- `BE32(v)`: the four bytes of a word, most significant first (R12). -/
def beBytes32 (v : Word) : List Byte :=
  [v.extractLsb' 24 8, v.extractLsb' 16 8, v.extractLsb' 8 8, v.extractLsb' 0 8]

/-- `BE64(v)`: the eight bytes of a u64, most significant first (R12). -/
def beBytes64 (v : DWord) : List Byte :=
  beBytes32 (v.extractLsb' 32 32) ++ beBytes32 (v.extractLsb' 0 32)

/-- The little-endian words of a byte string, lowest address first (40_checksum.md R113). -/
def leWords : List Byte → List Word
  | b0 :: b1 :: b2 :: b3 :: rest => leValue [b0, b1, b2, b3] :: leWords rest
  | _ => []

/-- The big-endian words of a byte string (41_key_schedule.md R132). -/
def beWords : List Byte → List Word
  | b0 :: b1 :: b2 :: b3 :: rest => beValue [b0, b1, b2, b3] :: beWords rest
  | _ => []

/-- `rotl32(x, n)` for 0 < n < 32 (R11). -/
def rotl32 (x : Word) (n : Nat) : Word := (x <<< n) ||| (x >>> (32 - n))

end Sys2Proof
end

