-- ==== Sys2Proof/Syntax.lean ====
section
/-! DEFINITION. The commands of XDC-CMD v1 (30_encoding.md R84), one constructor for each row of
spec/opcode_table.json. The operands are the used fields of R85, at the widths of R81. -/

namespace Sys2Proof

/-- A command word that passes checks 1 to 3 of 60_exceptions.md R227. `rev` is the 4-bit REV field, supported or
not; `off` and `len` are byte counts (R82). -/
inductive Instr where
  /-- OP 0x00 (44_codec_facade.md R207). -/
  | nop
  /-- OP 0x01 (40_checksum.md R114). -/
  | cksum (src : Src) (off len : BitVec 8)
  /-- OP 0x02 (41_key_schedule.md R142). -/
  | khash (rev : BitVec 4) (src : Src) (off len : BitVec 8)
  /-- OP 0x03 (42_stream_cipher.md R165). -/
  | rc4x (src : Src) (off len : BitVec 8)
  /-- OP 0x04 (43_revision_resolver.md R185). -/
  | decode
  /-- OP 0x05 (44_codec_facade.md R200). -/
  | encode (rev : BitVec 4)
  deriving DecidableEq, Repr, Inhabited

end Sys2Proof
end

