-- ==== Sys2Proof/Decode.lean ====
section
/-! DEFINITION. Decoding and encoding of command words (30_encoding.md R80 to R86). Decoding makes checks 1 to 3 of
60_exceptions.md R227, in that order, and refuses a word by the name of the check it fails; each refusal is what the
block reports as ILLEGAL_COMMAND. -/

namespace Sys2Proof

/-- Why a word is no command (R86, R222). -/
inductive DecodeError where
  /-- Check 1: OP is 0x06 to 0xFF. -/
  | illegalOpcode (op : BitVec 8)
  /-- Check 2: RSV is not 0. -/
  | reservedBits
  /-- Check 3: a field that R85 marks 0 for the opcode is not 0. -/
  | unusedField
  /-- The byte string is not the four bytes of one 32-bit word (R80). -/
  | notOneWord
  deriving DecidableEq, Repr

/-- OP, bits 7:0 (R81). -/
def fieldOp (v : Word) : BitVec 8 := v.extractLsb' 0 8
/-- REV, bits 11:8 (R81). -/
def fieldRev (v : Word) : BitVec 4 := v.extractLsb' 8 4
/-- SRC, bit 12 (R81). -/
def fieldSrc (v : Word) : BitVec 1 := v.extractLsb' 12 1
/-- RSV, bits 15:13 (R81). -/
def fieldRsv (v : Word) : BitVec 3 := v.extractLsb' 13 3
/-- OFF, bits 23:16 (R81). -/
def fieldOff (v : Word) : BitVec 8 := v.extractLsb' 16 8
/-- LEN, bits 31:24 (R81). -/
def fieldLen (v : Word) : BitVec 8 := v.extractLsb' 24 8

/-- SRCBUF is IN if the SRC bit is 0, else OUT (R82). -/
def srcOfBit (b : BitVec 1) : Src := if b = 0 then .inBuf else .outBuf

/-- The SRC bit of a source buffer (R82). -/
def bitOfSrc : Src → BitVec 1
  | .inBuf => 0
  | .outBuf => 1

/-- The command a word stands for, or the check of R227 (1 to 3) that refuses it. The opcode map is R84 and the
unused fields are those of R85. -/
def decodeWord (v : Word) : Except DecodeError Instr :=
  if 6 ≤ (fieldOp v).toNat then .error (.illegalOpcode (fieldOp v))
  else if fieldRsv v ≠ 0 then .error .reservedBits
  else if fieldOp v = 0 then
    if fieldRev v = 0 ∧ fieldSrc v = 0 ∧ fieldOff v = 0 ∧ fieldLen v = 0 then .ok .nop else .error .unusedField
  else if fieldOp v = 1 then
    if fieldRev v = 0 then .ok (.cksum (srcOfBit (fieldSrc v)) (fieldOff v) (fieldLen v)) else .error .unusedField
  else if fieldOp v = 2 then
    .ok (.khash (fieldRev v) (srcOfBit (fieldSrc v)) (fieldOff v) (fieldLen v))
  else if fieldOp v = 3 then
    if fieldRev v = 0 then .ok (.rc4x (srcOfBit (fieldSrc v)) (fieldOff v) (fieldLen v)) else .error .unusedField
  else if fieldOp v = 4 then
    if fieldRev v = 0 ∧ fieldSrc v = 0 ∧ fieldOff v = 0 ∧ fieldLen v = 0 then .ok .decode else .error .unusedField
  else
    if fieldSrc v = 0 ∧ fieldOff v = 0 ∧ fieldLen v = 0 then .ok (.encode (fieldRev v)) else .error .unusedField

/-- Decoding of bytes as the host stores a command: the four bytes of one word, least significant first
(R80, 20_memory.md R53). -/
def decodeBytes : List Byte → Except DecodeError Instr
  | [b0, b1, b2, b3] => decodeWord (leValue [b0, b1, b2, b3])
  | _ => .error .notOneWord

/-- A word from its fields, LEN first as R81 draws it. -/
def packFields (len off : BitVec 8) (src : BitVec 1) (rev : BitVec 4) (op : BitVec 8) : Word :=
  len ++ off ++ (0 : BitVec 3) ++ src ++ rev ++ op

/-- The command word of an instruction (R81, R84, R85, R88). -/
def encodeWord : Instr → Word
  | .nop => packFields 0 0 0 0 0x00
  | .cksum src off len => packFields len off (bitOfSrc src) 0 0x01
  | .khash rev src off len => packFields len off (bitOfSrc src) rev 0x02
  | .rc4x src off len => packFields len off (bitOfSrc src) 0 0x03
  | .decode => packFields 0 0 0 0 0x04
  | .encode rev => packFields 0 0 0 rev 0x05

/-- The command word whose low `nbits` bits are those of `w` and whose other bits are 0. -/
def tableWord (nbits w : Nat) : Word := BitVec.ofNat 32 (w % 2 ^ nbits)

/-- What the decoder reads from an instruction whose bits are `w`, numbered as spec/opcode_table.json numbers them. -/
def decodeTableWord (nbits w : Nat) : Option Instr :=
  match decodeBytes (leBytes32 (tableWord nbits w)) with
  | .ok i => some i
  | .error _ => none

end Sys2Proof
end

