-- ==== Sys2Proof/Config.lean ====
section
/-! DEFINITION. What an implementation fixes (00_scope.md R8, 10_state.md R28 and R29) and the free values
the model draws. Every function of the model takes a `Config` as an argument, as R8 asks; the machine of this
package runs with the opaque `Config.platform`, of which no proof can see a value. -/

namespace Sys2Proof

/-- The four supported revisions (R7, 30_encoding.md R83), in candidate order. -/
inductive Rev where
  | debug
  | retail1
  | retail2
  | retail3
  deriving DecidableEq, Repr, Inhabited

/-- The implementation parameters. -/
structure Config where
  /-- SeedA of each revision: five u32 words (R8, R28). -/
  seedA : Rev → Vector Word 5
  /-- SeedB of each revision: five u32 words (R8, R28). -/
  seedB : Rev → Vector Word 5
  /-- PREFIX_LEN is one of 0 and 64 (R8, R29); `true` stands for 64. -/
  prefixIs64 : Bool
  /-- BASE, the host address of the window (R8, 20_memory.md R50). -/
  base : Nat
  /-- Which fault is recorded when one access breaks both the rules of R52 and R55 and the busy rule R56.
  The spec does not say, so this is a free value, of the access itself (assumption log 4). -/
  hazardFirst : (isRead : Bool) → (off width : Nat) → Bool
  deriving Inhabited

/-- PREFIX_LEN in bytes (R8, R29). -/
def Config.prefixLen (cfg : Config) : Nat := if cfg.prefixIs64 then 64 else 0

/-- The parameters of the platform the machine runs on: OPEN in the spec (R8), so a free value without a body
(assumption log 3). -/
opaque Config.platform : Config

/-- The number of host turns that pass before the block step of the `n`-th launched command: the unbounded draw
of R8 and 70_reset_and_hazards.md R255, a free value without a body (assumption log 2). -/
opaque Config.latency : Nat → Nat

end Sys2Proof
end

