-- ==== Sys2Proof/Machine/State.lean ====
section
/-! DEFINITION. The state of XDC (10_state.md), as plain data, and its value after reset (70_reset_and_hazards.md
R250). INVENTORY.md lists every field beside the rule that names it. -/

namespace Sys2Proof.Machine

/-- The error codes of STATUS.ERR (60_exceptions.md R221). -/
inductive Err where
  | ok
  | illegalCommand
  | unsupportedRevision
  | decodeFailure
  | align
  | range
  deriving DecidableEq, Repr, Inhabited

/-- The three buffers (10_state.md R21, R22, R23). -/
inductive Buffer where
  | inBuf
  | outBuf
  | digest
  deriving DecidableEq, Repr, Inhabited

/-- Whether a host access reads or writes (the "kind" of BAD_ACCESS, 20_memory.md R52). -/
inductive AccessKind where
  | read
  | write
  deriving DecidableEq, Repr, Inhabited

/-- The reasons the machine stops (60_exceptions.md R230). They are recorded in the mark FAULT when they are raised;
the outcome `fault` answers with the recorded reason on the next step. -/
inductive Fault where
  /-- BAD_ACCESS: raised by the host, for an access that breaks the width, alignment, row or right rules of
  20_memory.md R52 and R55. Safe: the spec performs no such access. -/
  | badAccess (off width : Nat) (kind : AccessKind)
  /-- HAZARD: raised by the host, for any access but a 4-byte STATUS read while STATUS.BUSY = 1 (R56). Safe. -/
  | hazard (off : Nat)
  /-- UNDEF_READ: raised by the host, for a read of a ⊥ cell or of CKSUM while it is ⊥ (R53; 10_state.md R38). Safe:
  the spec names this fault and gives the read no value. -/
  | undefReadHost (off : Nat)
  /-- UNDEF_READ: raised by the block, for a command that reads a ⊥ cell (10_state.md R38): the buffer and the index
  of the first such cell. Safe. -/
  | undefReadBlock (buf : Buffer) (index : Nat)
  /-- Raised by the block step when STATUS.BUSY = 1 and PENDING is ⊥. No rule gives such a step an effect and no run
  reaches it (assumption log 8). Safe. -/
  | pendingUndefined
  deriving DecidableEq, Repr

/-- The refusals of the machine. No meaning of this model refuses anything. -/
inductive Refusal where
  /-- An instruction whose arm of `exec` has no meaning yet. No arm raises it. Safe. -/
  | notModelled (mnemonic : String)
  deriving DecidableEq, Repr

/-- What the world outside the block does next (assumption logs 1 and 6): one window access of the host
(20_memory.md R53), the host's wait for completion (30_encoding.md R88 `poll`), or the reset input. -/
inductive HostAction where
  /-- A read of `n` bytes at window offset `off`: `lb`, `lh` and `lw` for n = 1, 2, 4 (R53, R88). -/
  | read (off n : Nat)
  /-- A write of the given bytes at window offset `off`, the first byte least significant: `sb`, `sh` and `sw` for
  1, 2 and 4 bytes (R53, R88). -/
  | write (off : Nat) (bytes : List Byte)
  /-- 4-byte reads of STATUS until bit 31 of the value read is 0 (R88, R257). -/
  | poll
  /-- Reset is asserted (70_reset_and_hazards.md R250). -/
  | reset
  deriving DecidableEq, Repr

/-- A value the host has read. -/
structure HostRead where
  off : Nat
  width : Nat
  value : Word
  deriving DecidableEq, Repr

/-- The byte cells of the window: pairs of a window offset and the byte there, offsets strictly rising. A cell that
is not listed holds ⊥ (10_state.md R38; assumption log 7). -/
abbrev Memory := List Host.Cell

/-- Offsets strictly rising, so that equal memories are equal lists. No entry can equal what an unlisted cell
holds, since ⊥ is no byte. -/
abbrev Memory.wf (m : Memory) : Prop := m.Pairwise (fun x y => x.1 < y.1)

/-- The persistent state (10_state.md R35, R37) and the model's four own fields. -/
structure State where
  /-- IN at 0x000, OUT at 0x100 and DIGEST at 0x200 (R21, R22, R23, R51). -/
  mem : Memory
  /-- CKSUM (R24); `none` is the spec's ⊥. -/
  cksum : Option Word
  /-- STATUS (R25). -/
  status : Word
  /-- PENDING (R27); `none` is the spec's ⊥. -/
  pending : Option Word
  /-- The sticky mark FAULT (R37, R230). -/
  fault : Option Fault
  /-- What the host and the reset input do from here on, the next first (the model's own; assumption log 1). -/
  hostQueue : List HostAction
  /-- The values host reads have returned, the newest first (the model's own; assumption log 1). -/
  hostReads : List HostRead
  /-- The host turns that may still pass before the pending command's block step (the model's own; assumption
  log 2). -/
  delay : Nat
  /-- How many latencies have been drawn (the model's own; assumption log 2). -/
  draws : Nat
  deriving DecidableEq, Repr

/-- The machine right after reset (R250): every cell, CKSUM and PENDING ⊥, STATUS 0x00000F00, no fault. The last
four fields are the model's own (assumption log 9). -/
def State.reset : State where
  mem := []
  cksum := none
  status := 0x00000F00
  pending := none
  fault := none
  hostQueue := []
  hostReads := []
  delay := 0
  draws := 0

end Sys2Proof.Machine
end

