-- ==== Sys2Proof/Machine/Flags.lean ====
section
/-! DEFINITION. STATUS: its fields (10_state.md R25), the error codes (60_exceptions.md R221), the revision codes
(30_encoding.md R83) and the values a launch, a report and a completion write. -/

namespace Sys2Proof.Machine

/-- The code of an error in STATUS.ERR (R221). -/
def Err.code : Err → BitVec 4
  | .ok => 0x0
  | .illegalCommand => 0x1
  | .unsupportedRevision => 0x2
  | .decodeFailure => 0x3
  | .align => 0x4
  | .range => 0x5

/-- The revision code of a supported revision (R83). -/
def revCode : Rev → BitVec 4
  | .debug => 0x0
  | .retail1 => 0x1
  | .retail2 => 0x2
  | .retail3 => 0x3

/-- The supported revision of a REV field; `none` for the codes 0x4 to 0xF (R83). -/
def revOfCode (c : BitVec 4) : Option Rev :=
  if c = 0x0 then some .debug
  else if c = 0x1 then some .retail1
  else if c = 0x2 then some .retail2
  else if c = 0x3 then some .retail3
  else none

/-- STATUS.RREV after anything but a successful DECODE (R25). -/
def rrevNone : BitVec 4 := 0xF

/-- A STATUS word from its fields; the reserved bits are 0 (R25). -/
def packStatus (busy : BitVec 1) (rrev err : BitVec 4) : Word :=
  busy ++ (0 : BitVec 19) ++ rrev ++ (0 : BitVec 4) ++ err

/-- STATUS.ERR, bits 3:0 (R25). -/
def statusErr (v : Word) : BitVec 4 := v.extractLsb' 0 4
/-- STATUS.RREV, bits 11:8 (R25). -/
def statusRrev (v : Word) : BitVec 4 := v.extractLsb' 8 4
/-- STATUS.BUSY, bit 31 (R25). -/
def statusBusy (v : Word) : Bool := v.getLsbD 31
/-- The reserved bits 7:4 and 30:12 of STATUS (R25). -/
def statusReserved (v : Word) : Word := v &&& 0x7FFFF0F0

/-- STATUS after a CMD write: BUSY = 1, RREV = 0xF, ERR = 0 (20_memory.md R57). -/
def launchStatus : Word := packStatus 1 rrevNone 0

/-- STATUS after a completed command: BUSY = 0 and the given RREV and ERR (60_exceptions.md R228). -/
def doneStatus (rrev : BitVec 4) (e : Err) : Word := packStatus 0 rrev e.code

/-- STATUS.BUSY of a state. -/
def State.busy (s : State) : Bool := statusBusy s.status

end Sys2Proof.Machine
end

