-- ==== Sys2Proof/Machine/Ops.lean ====
section
/-! DEFINITION. The named operations over the byte cells and the registers, and what this hardware has in place of an
exception: `State.report` (an error in STATUS, 60_exceptions.md R228) and `State.raise` (the fault mark, R230). It has
no return from either; reset alone clears the mark (R231). -/

namespace Sys2Proof.Machine

/-- The byte of cell `a`; `none` is ⊥ (10_state.md R38). -/
def Memory.get? : Memory → Nat → Option Byte
  | [], _ => none
  | (k, b) :: rest, a => if k = a then some b else Memory.get? rest a

/-- Cell `a` holds `b` from now on; every other cell is as before. -/
def Memory.set : Memory → Nat → Byte → Memory
  | [], a, b => [(a, b)]
  | (k, c) :: rest, a, b =>
    if a < k then (a, b) :: (k, c) :: rest
    else if a = k then (a, b) :: rest
    else (k, c) :: Memory.set rest a b

/-- The cells from `a` on hold the bytes `bs` (20_memory.md R53, `MemWrite` on a buffer row). -/
def Memory.setBytes : Memory → Nat → List Byte → Memory
  | m, _, [] => m
  | m, a, b :: bs => Memory.setBytes (Memory.set m a b) (a + 1) bs

/-- The bytes of the `n` cells from `a` on, or the first of them that holds ⊥. -/
def Memory.getBytes (m : Memory) : Nat → Nat → Except Nat (List Byte)
  | _, 0 => .ok []
  | a, n + 1 =>
    match Memory.get? m a with
    | none => .error a
    | some b =>
      match Memory.getBytes m (a + 1) n with
      | .error e => .error e
      | .ok bs => .ok (b :: bs)

/-- The window offset of a buffer's first cell (20_memory.md R51). -/
def Buffer.base : Buffer → Nat
  | .inBuf => 0x000
  | .outBuf => 0x100
  | .digest => 0x200

/-- The number of cells of a buffer (R51). -/
def Buffer.size : Buffer → Nat
  | .inBuf => 256
  | .outBuf => 256
  | .digest => 20

/-- One cell of a buffer; `none` is ⊥. -/
def State.cell? (s : State) (b : Buffer) (k : Nat) : Option Byte := Memory.get? s.mem (b.base + k)

/-- `buf[off .. off+n)` as a command reads it: the bytes, or UNDEF_READ with the buffer and the index of the first
⊥ cell in increasing order (60_exceptions.md R230). -/
def State.readCells (s : State) (b : Buffer) (off n : Nat) : Except Fault (List Byte) :=
  match Memory.getBytes s.mem (b.base + off) n with
  | .ok bs => .ok bs
  | .error a => .error (.undefReadBlock b (a - b.base))

/-- `buf[off .. off+len(bs)) <- bs`. -/
def State.writeCells (s : State) (b : Buffer) (off : Nat) (bs : List Byte) : State :=
  { s with mem := Memory.setBytes s.mem (b.base + off) bs }

/-- `CKSUM <- v` (10_state.md R24). -/
def State.setCksum (s : State) (v : Word) : State := { s with cksum := some v }

/-- `STATUS <- v` (10_state.md R25). -/
def State.setStatus (s : State) (v : Word) : State := { s with status := v }

/-- `raise`: the mark FAULT is set and nothing else changes (60_exceptions.md R230). -/
def State.raise (s : State) (f : Fault) : State := { s with fault := some f }

/-- `report(e)`: the command ends with an error and no effect but on STATUS (60_exceptions.md R228). -/
def State.report (s : State) (e : Err) : State := s.setStatus (doneStatus rrevNone e)

/-- The STATUS write of a successful command: BUSY = 0, the given RREV, ERR = OK (60_exceptions.md R228). -/
def State.complete (s : State) (rrev : BitVec 4) : State := s.setStatus (doneStatus rrev .ok)

/-- A command's read of a region, followed by what it does with the bytes; a ⊥ cell raises UNDEF_READ and the command
makes no write (70_reset_and_hazards.md R254). -/
def State.withCells (s : State) (b : Buffer) (off n : Nat) (k : List Byte → State) : State :=
  match s.readCells b off n with
  | .ok bs => k bs
  | .error f => s.raise f

/-- A launch: PENDING takes the word and STATUS says BUSY (20_memory.md R57). The latency of the command is drawn
here (assumption log 2). -/
def State.launch (s : State) (v : Word) : State :=
  { s with
    pending := some v
    status := launchStatus
    delay := Config.latency s.draws
    draws := s.draws + 1 }

/-- The host has one action less to do. -/
def State.setQueue (s : State) (q : List HostAction) : State := { s with hostQueue := q }

/-- The host has read a value; one of the turns before the block step has passed. -/
def State.recordRead (s : State) (off n : Nat) (v : Word) : State :=
  { s with hostReads := ⟨off, n, v⟩ :: s.hostReads, delay := s.delay - 1 }

/-- Reset (70_reset_and_hazards.md R250): every piece of the block's state takes its reset value, and a pending command
is discarded. What the host has still to do, what it has read and the draw counter are not the block's, and stay
(assumption log 6). -/
def State.assertReset (s : State) (q : List HostAction) : State :=
  { State.reset with hostQueue := q, hostReads := s.hostReads, draws := s.draws }

/-- A command word latched and due at once: what the host places to run one command as the very next step
(assumption log 11). -/
def State.latch (s : State) (v : Word) : State :=
  { s with pending := some v, status := launchStatus, delay := 0, fault := none }

end Sys2Proof.Machine
end

