-- ==== Sys2Proof/Machine/Operands.lean ====
section
/-! DEFINITION. Operand forms (30_encoding.md R82) and the validation of a command (60_exceptions.md R227). -/

namespace Sys2Proof.Machine

/-- SRCBUF (R82). -/
def srcBuffer : Src → Buffer
  | .inBuf => .inBuf
  | .outBuf => .outBuf

/-- Check 4 of R227: UNSUPPORTED_REVISION for a code of 4 or more (R223). -/
def checkRev (rev : BitVec 4) : Option Err :=
  if 4 ≤ rev.toNat then some .unsupportedRevision else none

/-- Check 5 of R227: ALIGN unless offset and length are multiples of 4 (R225). -/
def checkAlign (off len : BitVec 8) : Option Err :=
  if off.toNat % 4 ≠ 0 ∨ len.toNat % 4 ≠ 0 then some .align else none

/-- Check 6 of R227: RANGE if the region ends beyond 256; the end is computed in 9 bits and never wraps
(R82, R226). -/
def checkRange (off len : BitVec 8) : Option Err :=
  if 256 < (off.setWidth 9 + len.setWidth 9).toNat then some .range else none

/-- The error of the first check that fails, or what the command does when all pass. -/
def State.checked (s : State) (checks : List (Option Err)) (k : State) : State :=
  match checks.findSome? id with
  | some e => s.report e
  | none => k

/-- Whether a field that R85 marks 0 for the opcode is non-zero (check 3 of R227); written from R85's table. -/
def unusedFieldSet (v : Word) : Bool :=
  match (fieldOp v).toNat with
  | 0 => fieldRev v != 0 || fieldSrc v != 0 || fieldOff v != 0 || fieldLen v != 0
  | 1 => fieldRev v != 0
  | 2 => false
  | 3 => fieldRev v != 0
  | 4 => fieldRev v != 0 || fieldSrc v != 0 || fieldOff v != 0 || fieldLen v != 0
  | 5 => fieldSrc v != 0 || fieldOff v != 0 || fieldLen v != 0
  | _ => false

/-- `Validate(v)` as R227 writes it, over the word's bits. The machine's step makes the same checks in two places,
checks 1 to 3 when it decodes and 4 to 6 in the command's meaning; an obligation says that they agree. -/
def validate (v : Word) : Err :=
  if 6 ≤ (fieldOp v).toNat then .illegalCommand
  else if fieldRsv v ≠ 0 then .illegalCommand
  else if unusedFieldSet v then .illegalCommand
  else if (fieldOp v = 2 ∨ fieldOp v = 5) ∧ 4 ≤ (fieldRev v).toNat then .unsupportedRevision
  else if fieldOp v = 1 ∧ ((fieldOff v).toNat % 4 ≠ 0 ∨ (fieldLen v).toNat % 4 ≠ 0) then .align
  else if (fieldOp v = 1 ∨ fieldOp v = 2 ∨ fieldOp v = 3) ∧ 256 < (fieldOff v).toNat + (fieldLen v).toNat then .range
  else .ok

end Sys2Proof.Machine
end

