-- ==== Sys2Proof/Machine/Checksum.lean ====
section
/-! DEFINITION. The checksum engine and the CKSUM command (40_checksum.md). -/

namespace Sys2Proof.Machine

/-- The accumulator: the halves ACC_HI and ACC_LO (10_state.md R31). -/
structure Accumulator where
  hi : Word
  lo : Word
  deriving DecidableEq, Repr, Inhabited

/-- One word into the accumulator: the 64-bit sum, split into its halves again (R110). -/
def accumulate (acc : Accumulator) (w : Word) : Accumulator :=
  let s : DWord := ((acc.hi.setWidth 64 <<< 32) ||| acc.lo.setWidth 64) + w.setWidth 64
  ⟨s.extractLsb' 32 32, s.extractLsb' 0 32⟩

/-- The accumulator after all the words of a region, lowest address first, from 0 (R110, R113). -/
def accumulateAll (B : List Byte) : Accumulator := (leWords B).foldl accumulate ⟨0, 0⟩

/-- `Checksum(B)` (R110): the one's complement of the 32-bit sum of the halves; its carry is dropped (R112). -/
def checksum (B : List Byte) : Word := ~~~((accumulateAll B).hi + (accumulateAll B).lo)

/-- The checksum of an image's factory section (R115). -/
def factoryChecksum (img : List Byte) : Word := checksum (slice img 0x34 0x60)

/-- The checksum of an image's user section (R115). -/
def userChecksum (img : List Byte) : Word := checksum (slice img 0x64 0xC0)

/-- The state after CKSUM (R114). -/
def cksumResult (src : Src) (off len : BitVec 8) (s : State) : State :=
  s.checked [checkAlign off len, checkRange off len] <|
    s.withCells (srcBuffer src) off.toNat len.toNat fun B =>
      (s.setCksum (checksum B)).complete rrevNone

/-- CKSUM, the checksum of a region (R114). -/
def execCksum (src : Src) (off len : BitVec 8) (s : State) : Host.Outcome State Fault Refusal :=
  .next (cksumResult src off len s)

end Sys2Proof.Machine
end

