-- ==== Sys2Proof/Machine/KeySchedule.lean ====
section
/-! DEFINITION. The key schedule: SHA-1 with a seeded state, KeyedHash, and the KHASH command (41_key_schedule.md).
R131 to R137 are the SHA-1 the spec transcribes from general knowledge (93_implementation_defined.md G1 to G6). -/

namespace Sys2Proof.Machine

/-- The chaining state H[0..5), which are also the working variables a to e (10_state.md R32). -/
structure Chain where
  a : Word
  b : Word
  c : Word
  d : Word
  e : Word
  deriving DecidableEq, Repr, Inhabited

/-- Seed loading: word k of the seed is H[k] (R139). -/
def loadSeed (seed : Vector Word 5) : Chain := ⟨seed[0], seed[1], seed[2], seed[3], seed[4]⟩

/-- `Pad(m)` (R131): 0x80, zeros up to the length field, and the bit length as a big-endian u64, which counts
PREFIX_LEN bytes before `m`. The number of zeros is (55 - len(m)) mod 64, written without a negative number. -/
def pad (prefixLen : Nat) (m : List Byte) : List Byte :=
  m ++ [0x80] ++ List.replicate ((119 - m.length % 64) % 64) 0
    ++ beBytes64 (BitVec.ofNat 64 (8 * (prefixLen + m.length)))

/-- `n` more words of the message schedule (R133), the newest word first: `W[t-3]`, `W[t-8]`, `W[t-14]` and `W[t-16]`
are the 3rd, 8th, 14th and 16th before the new one. -/
def extendSchedule : Nat → List Word → List Word
  | 0, ws => ws
  | n + 1, ws =>
    extendSchedule n (rotl32 (ws.getD 2 0 ^^^ ws.getD 7 0 ^^^ ws.getD 13 0 ^^^ ws.getD 15 0) 1 :: ws)

/-- The message schedule W[0..80) of a 64-byte block (R132, R133). -/
def schedule (M : List Byte) : List Word := (extendSchedule 64 (beWords M).reverse).reverse

/-- The round function f_t (R134). -/
def roundF (t : Nat) (b c d : Word) : Word :=
  if t < 20 then (b &&& c) ||| (~~~b &&& d)
  else if t < 40 then b ^^^ c ^^^ d
  else if t < 60 then (b &&& c) ||| (b &&& d) ||| (c &&& d)
  else b ^^^ c ^^^ d

/-- The round constant K_t (R134). -/
def roundK (t : Nat) : Word :=
  if t < 20 then 0x5A827999
  else if t < 40 then 0x6ED9EBA1
  else if t < 60 then 0x8F1BBCDC
  else 0xCA62C1D6

/-- One round (R135). -/
def sha1Round (s : Chain) (t : Nat) (w : Word) : Chain where
  a := rotl32 s.a 5 + roundF t s.b s.c s.d + s.e + roundK t + w
  b := s.a
  c := rotl32 s.b 30
  d := s.c
  e := s.d

/-- The rounds from round `t` on, one for each word of the schedule left (R135). -/
def sha1Rounds : Nat → List Word → Chain → Chain
  | _, [], s => s
  | t, w :: ws, s => sha1Rounds (t + 1) ws (sha1Round s t w)

/-- `Compress(H, M)` with its feed-forward (R135). -/
def compress (H : Chain) (M : List Byte) : Chain :=
  let r := sha1Rounds 0 (schedule M) H
  ⟨H.a + r.a, H.b + r.b, H.c + r.c, H.d + r.d, H.e + r.e⟩

/-- `n` padded blocks, in order (R136). -/
def compressBlocks : Nat → List Byte → Chain → Chain
  | 0, _, H => H
  | n + 1, P, H => compressBlocks n (P.drop 64) (compress H (P.take 64))

/-- The 20-byte digest (R137). -/
def digestBytes (H : Chain) : List Byte :=
  beBytes32 H.a ++ beBytes32 H.b ++ beBytes32 H.c ++ beBytes32 H.d ++ beBytes32 H.e

/-- `SeededSHA1(seed, m)` (R138). -/
def seededSha1 (prefixLen : Nat) (seed : Vector Word 5) (m : List Byte) : List Byte :=
  digestBytes (compressBlocks ((pad prefixLen m).length / 64) (pad prefixLen m) (loadSeed seed))

/-- `KeyedHash(r, m)` (R140): SeedA over the message, then SeedB over the intermediate digest, each from a fresh
seed. It is irreducible so that no proof about the commands computes a hash by accident. -/
@[irreducible] def keyedHash (cfg : Config) (r : Rev) (m : List Byte) : List Byte :=
  seededSha1 cfg.prefixLen (cfg.seedB r) (seededSha1 cfg.prefixLen (cfg.seedA r) m)

/-- SHA-1's public initial vector (R130), which the block never loads. -/
def publicIv : Vector Word 5 := #v[0x67452301, 0xEFCDAB89, 0x98BADCFE, 0x10325476, 0xC3D2E1F0]

/-- SHA-1 itself: the public IV and no length prefix (R138). -/
def sha1 (m : List Byte) : List Byte := seededSha1 0 publicIv m

/-- A 64-byte key block with every byte XORed with `p` (R144). -/
def xorPad (K : List Byte) (p : Byte) : List Byte := K.map (· ^^^ p)

/-- HMAC-SHA1 of a 64-byte key block (R144; RFC 2104 as 93_implementation_defined.md G10 names it). -/
def hmacSha1 (K m : List Byte) : List Byte := sha1 (xorPad K 0x5C ++ sha1 (xorPad K 0x36 ++ m))

/-- The words of a chaining state, in H order, as a seed is given (R139). -/
def Chain.toSeed (H : Chain) : Vector Word 5 := #v[H.a, H.b, H.c, H.d, H.e]

/-- The configuration of R144's reading: the seeds are the states after one key block, and PREFIX_LEN is 64. -/
def hmacConfig (K : List Byte) : Config where
  seedA := fun _ => (compress (loadSeed publicIv) (xorPad K 0x36)).toSeed
  seedB := fun _ => (compress (loadSeed publicIv) (xorPad K 0x5C)).toSeed
  prefixIs64 := true
  base := 0
  hazardFirst := fun _ _ _ => true

/-- The state after KHASH (R142). A revision code of 4 or more never reaches KeyedHash (R141). -/
def khashResult (cfg : Config) (rev : BitVec 4) (src : Src) (off len : BitVec 8) (s : State) : State :=
  match revOfCode rev with
  | none => s.report .unsupportedRevision
  | some r =>
    s.checked [checkRange off len] <|
      s.withCells (srcBuffer src) off.toNat len.toNat fun m =>
        (s.writeCells .digest 0 (keyedHash cfg r m)).complete rrevNone

/-- KHASH, the keyed hash of a region (R142). -/
def execKhash (rev : BitVec 4) (src : Src) (off len : BitVec 8) (s : State) : Host.Outcome State Fault Refusal :=
  .next (khashResult Config.platform rev src off len s)

end Sys2Proof.Machine
end

