-- ==== Sys2Proof/Machine/StreamCipher.lean ====
section
/-! DEFINITION. The stream cipher and the RC4X command (42_stream_cipher.md). R160 and R161 are the RC4 the spec
transcribes from general knowledge (93_implementation_defined.md G7, G8). -/

namespace Sys2Proof.Machine

/-- `S[i]`; the permutation has 256 bytes, so every u8 is an index. -/
def sboxAt (S : List Byte) (i : Byte) : Byte := S.getD i.toNat 0

/-- `swap(S[i], S[j])`. -/
def sboxSwap (S : List Byte) (i j : Byte) : List Byte :=
  (S.set i.toNat (sboxAt S j)).set j.toNat (sboxAt S i)

/-- One step of the key scheduling loop (R160), on S and j. -/
def ksaStep (key : List Byte) (p : List Byte × Byte) (i : Nat) : List Byte × Byte :=
  let j := p.2 + sboxAt p.1 (BitVec.ofNat 8 i) + key.getD (i % 20) 0
  (sboxSwap p.1 (BitVec.ofNat 8 i) j, j)

/-- `KSA(key)` (R160). -/
def ksa (key : List Byte) : List Byte :=
  ((List.range 256).foldl (ksaStep key) ((List.range 256).map (BitVec.ofNat 8), 0)).1

/-- `PRGA(S, n)` from the indices i and j (R161); nothing is discarded. -/
def prga : Nat → List Byte → Byte → Byte → List Byte
  | 0, _, _, _ => []
  | n + 1, S, i, j =>
    let i := i + 1
    let j := j + sboxAt S i
    let S := sboxSwap S i j
    sboxAt S (sboxAt S i + sboxAt S j) :: prga n S i j

/-- The first `n` keystream bytes of a key (R160, R161). Every evaluation starts from the key (R164). It is
irreducible so that no proof about the commands computes a keystream by accident. -/
@[irreducible] def keystream (key : List Byte) (n : Nat) : List Byte := prga n (ksa key) 0 0

/-- `RC4(key, D)` (R162). -/
def rc4 (key D : List Byte) : List Byte := List.zipWith (· ^^^ ·) D (keystream key D.length)

/-- The state after RC4X (R165). DIGEST is read first, even when the region is empty; all of the result is computed
before any of it is written (R166). -/
def rc4xResult (src : Src) (off len : BitVec 8) (s : State) : State :=
  s.checked [checkRange off len] <|
    s.withCells .digest 0 20 fun key =>
      s.withCells (srcBuffer src) off.toNat len.toNat fun D =>
        (s.writeCells .outBuf off.toNat (rc4 key D)).complete rrevNone

/-- RC4X, the keystream XOR of a region into OUT (R165). -/
def execRc4x (src : Src) (off len : BitVec 8) (s : State) : Host.Outcome State Fault Refusal :=
  .next (rc4xResult src off len s)

end Sys2Proof.Machine
end

