-- ==== Sys2Proof/Machine/Facade.lean ====
section
/-! DEFINITION. The codec facade: the encode path, the ENCODE command and NOP (44_codec_facade.md). -/

namespace Sys2Proof.Machine

/-- The encoded image (R200, R205), from the parts of the input ENCODE uses: the protected block [0x14..0x30), the
factory section after its checksum [0x34..0x60), and the user section after its checksum with the tail [0x64..0x100).
The tag and the two checksum fields of the input are ignored (R202). -/
def encodedImage (cfg : Config) (r : Rev) (block factory userTail : List Byte) : List Byte :=
  let tag := keyedHash cfg r block
  let key := keyedHash cfg r tag
  tag ++ rc4 key block
    ++ leBytes32 (checksum factory) ++ factory
    ++ leBytes32 (checksum (slice userTail 0 92)) ++ userTail

/-- The state after ENCODE (R200). The revision is checked before anything is read (R201). -/
def encodeResult (cfg : Config) (rev : BitVec 4) (s : State) : State :=
  match revOfCode rev with
  | none => s.report .unsupportedRevision
  | some r =>
    s.withCells .inBuf 0x14 28 fun block =>
      s.withCells .inBuf 0x34 44 fun factory =>
        s.withCells .inBuf 0x64 156 fun userTail =>
          (s.writeCells .outBuf 0 (encodedImage cfg r block factory userTail)).complete rrevNone

/-- ENCODE, the encode of IN under a given revision into OUT (R200). -/
def execEncode (rev : BitVec 4) (s : State) : Host.Outcome State Fault Refusal :=
  .next (encodeResult Config.platform rev s)

/-- NOP (R207): STATUS alone is written. -/
def execNop (s : State) : Host.Outcome State Fault Refusal := .next (s.complete rrevNone)

end Sys2Proof.Machine
end

