-- ==== Sys2Proof/Machine/Resolver.lean ====
section
/-! DEFINITION. The revision resolver and the DECODE command (43_revision_resolver.md). -/

namespace Sys2Proof.Machine

/-- The candidates, in the order they are tried (R180). -/
def candidates : List Rev := [.debug, .retail1, .retail2, .retail3]

/-- `TAG(img)`, bytes 0x00 to 0x13 (20_memory.md R63). -/
def imageTag (img : List Byte) : List Byte := slice img 0x00 0x14

/-- `PB(img)`, the protected block, bytes 0x14 to 0x2F (20_memory.md R63). -/
def imageBlock (img : List Byte) : List Byte := slice img 0x14 0x30

/-- Steps 1 and 2 of R181: the candidate plaintext under a revision. -/
def candidatePlain (cfg : Config) (raw : List Byte) (r : Rev) : List Byte :=
  rc4 (keyedHash cfg r (imageTag raw)) (imageBlock raw)

/-- Steps 3 and 4 of R181: the candidate is accepted iff its keyed hash is the whole tag (R182). -/
def accepts (cfg : Config) (raw : List Byte) (r : Rev) : Bool :=
  keyedHash cfg r (candidatePlain cfg raw r) == imageTag raw

/-- The image a revision decodes to: the input with the protected block replaced (R183). -/
def decodedImage (cfg : Config) (raw : List Byte) (r : Rev) : List Byte :=
  imageTag raw ++ candidatePlain cfg raw r ++ slice raw 0x30 0x100

/-- `Resolve(raw)` (R181): the first candidate accepted wins (R187); `none` is DecodeFailure (R184). -/
def resolve (cfg : Config) (raw : List Byte) : Option (List Byte × Rev) :=
  match candidates.find? (accepts cfg raw) with
  | some r => some (decodedImage cfg raw r, r)
  | none => none

/-- The state after DECODE (R185). -/
def decodeResult (cfg : Config) (s : State) : State :=
  s.withCells .inBuf 0 256 fun raw =>
    match resolve cfg raw with
    | some (img, r) => (s.writeCells .outBuf 0 img).complete (revCode r)
    | none => s.report .decodeFailure

/-- DECODE, the decode of IN into OUT with revision detection (R185). -/
def execDecode (s : State) : Host.Outcome State Fault Refusal := .next (decodeResult Config.platform s)

end Sys2Proof.Machine
end

