-- ==== Sys2Proof/Machine/Dispatch.lean ====
section
/-! DEFINITION. The meaning of each command (30_encoding.md R87), one arm each. -/

namespace Sys2Proof.Machine

def exec (i : Instr) (s : State) : Host.Outcome State Fault Refusal :=
  match i with
  | .nop => Sys2Proof.Machine.execNop s
  | .cksum src off len => Sys2Proof.Machine.execCksum src off len s
  | .khash rev src off len => Sys2Proof.Machine.execKhash rev src off len s
  | .rc4x src off len => Sys2Proof.Machine.execRc4x src off len s
  | .decode => Sys2Proof.Machine.execDecode s
  | .encode rev => Sys2Proof.Machine.execEncode rev s

end Sys2Proof.Machine
end

