-- ==== Sys2Proof/Machine/Window.lean ====
section
/-! DEFINITION. The host window (20_memory.md part A): its map, which accesses are admitted, and what a read and a
write do. -/

namespace Sys2Proof.Machine

/-- One row of the window map (R51) that admits accesses. -/
structure WindowRow where
  start : Nat
  size : Nat
  readable : Bool
  writable : Bool
  widths : List Nat
  deriving DecidableEq, Repr

/-- CKSUM's offset (R51). -/
def offCksum : Nat := 0x220
/-- STATUS's offset (R51). -/
def offStatus : Nat := 0x224
/-- CMD's offset (R51). -/
def offCmd : Nat := 0x228

/-- The window map (R51). The reserved rows 0x214-0x21F and 0x22C-0x3FF admit nothing and are not listed. -/
def windowMap : List WindowRow :=
  [⟨0x000, 256, true, true, [1, 2, 4]⟩,
   ⟨0x100, 256, true, true, [1, 2, 4]⟩,
   ⟨0x200, 20, true, true, [1, 2, 4]⟩,
   ⟨offCksum, 4, true, false, [4]⟩,
   ⟨offStatus, 4, true, false, [4]⟩,
   ⟨offCmd, 4, false, true, [4]⟩]

/-- The row admits an access of this kind to the `n` bytes at `off`: all of them lie in the row, at a width and with
a right the row admits (R51, R52, R55). -/
def WindowRow.admits (r : WindowRow) (kind : AccessKind) (off n : Nat) : Bool :=
  decide (r.start ≤ off) && decide (off + n ≤ r.start + r.size) && r.widths.contains n &&
    (match kind with
     | .read => r.readable
     | .write => r.writable)

/-- The access is one of R52's: width 1, 2 or 4, naturally aligned, inside one row that admits it. -/
def admitted (kind : AccessKind) (off n : Nat) : Bool :=
  [1, 2, 4].contains n && off % n == 0 && windowMap.any (fun r => r.admits kind off n)

/-- The offset is a cell of IN, OUT or DIGEST (R51). -/
def inBuffers (off : Nat) : Bool := decide (off < 0x214)

/-- The fault the gate of R52, R55 and R56 raises for an access, if any. An access that breaks both the busy rule and
the others records the one `cfg.hazardFirst` says of it (assumption log 4). -/
def accessFault (cfg : Config) (s : State) (kind : AccessKind) (off n : Nat) : Option Fault :=
  let busyBroken := s.busy && !(kind == .read && off == offStatus && n == 4)
  let rulesBroken := !admitted kind off n
  if busyBroken && rulesBroken then
    some (if cfg.hazardFirst (kind == .read) off n then .hazard off else .badAccess off n kind)
  else if busyBroken then some (.hazard off)
  else if rulesBroken then some (.badAccess off n kind)
  else none

/-- `MemRead(off, n)` (R53) behind the gate: the value, or the fault that is raised. Both UNDEF_READ lines are R53's own
pseudocode, `if any cell = ⊥: raise UNDEF_READ(off)` and `if CKSUM = ⊥: raise UNDEF_READ(off)`: ⊥ "never yields a value"
(10_state.md R38; 60_exceptions.md R230). -/
def memRead (cfg : Config) (s : State) (off n : Nat) : Except Fault Word :=
  match accessFault cfg s .read off n with
  | some f => .error f
  | none =>
    if inBuffers off then
      match Memory.getBytes s.mem off n with
      | .ok bs => .ok (leValue bs)
      | .error _ => .error (.undefReadHost off)
    else if off = offCksum then
      match s.cksum with
      | some v => .ok v
      | none => .error (.undefReadHost off)
    else .ok s.status

/-- `MemWrite(off, n, v)` (R53) behind the gate, the bytes of `v` given least significant first: the state after it,
or the fault that is raised. A write that is admitted outside the buffers is a CMD write (R57). -/
def memWrite (cfg : Config) (s : State) (off : Nat) (bytes : List Byte) : Except Fault State :=
  match accessFault cfg s .write off bytes.length with
  | some f => .error f
  | none =>
    if inBuffers off then .ok { s with mem := Memory.setBytes s.mem off bytes }
    else .ok (s.launch (leValue bytes))

/-- The host address of a window offset (R50). -/
def hostAddress (cfg : Config) (off : Nat) : Nat := cfg.base + off

/-- The window offset of a host address; `none` is an address the block does not decode (R50). -/
def offsetOfAddress (cfg : Config) (addr : Nat) : Option Nat :=
  if cfg.base ≤ addr ∧ addr < cfg.base + 0x400 then some (addr - cfg.base) else none

end Sys2Proof.Machine
end

