-- ==== Sys2Proof/Machine/Agents.lean ====
section
/-! DEFINITION. The agents and whose turn it is (10_state.md R20): the block step (70_reset_and_hazards.md R254), the
host's accesses (20_memory.md R53 to R57), and reset (R250). -/

namespace Sys2Proof.Machine

/-- The block step: `Execute(PENDING)` (30_encoding.md R87). A word that is no command is reported as
ILLEGAL_COMMAND (60_exceptions.md R222). -/
def blockStep (s : State) : Host.Outcome State Fault Refusal :=
  match s.pending with
  | none => .fault .pendingUndefined
  | some v =>
    match decodeWord v with
    | .error _ => .next (s.report .illegalCommand)
    | .ok i => exec i s

/-- One action of the host, or of the reset input; `rest` is what comes after it. An access that raises a fault sets
the mark and changes nothing else (60_exceptions.md R230). A poll stays first in the queue until the STATUS it reads
says BUSY = 0 (30_encoding.md R88, R257). -/
def hostStep (cfg : Config) (a : HostAction) (rest : List HostAction) (s : State) : State :=
  match a with
  | .read off n =>
    match memRead cfg s off n with
    | .error f => s.raise f
    | .ok v => (s.recordRead off n v).setQueue rest
  | .write off bytes =>
    match memWrite cfg s off bytes with
    | .error f => s.raise f
    | .ok t => t.setQueue rest
  | .poll =>
    match memRead cfg s offStatus 4 with
    | .error f => s.raise f
    | .ok v => if statusBusy v then s.recordRead offStatus 4 v else (s.recordRead offStatus 4 v).setQueue rest
  | .reset => s.assertReset rest

/-- What is left of the queue after the next reset in it, if there is one: the accesses before it are never
performed once the machine has stopped (60_exceptions.md R231; assumption log 6). -/
def afterReset : List HostAction → Option (List HostAction)
  | [] => none
  | .reset :: rest => some rest
  | .read _ _ :: rest => afterReset rest
  | .write _ _ :: rest => afterReset rest
  | .poll :: rest => afterReset rest

/-- One step of the machine. With the mark FAULT set no host step and no block step is enabled, and only reset goes on
(R231). While BUSY the block steps when the host has had the turns the latency left it, or has nothing to do; else the
host acts. An idle machine whose host has nothing to do stays as it is (assumption log 11). -/
def agentsStep (s : State) : Host.Outcome State Fault Refusal :=
  match s.fault with
  | some f =>
    match afterReset s.hostQueue with
    | some rest => .next (s.assertReset rest)
    | none => .fault f
  | none =>
    match s.hostQueue with
    | [] => if s.busy then blockStep s else .next s
    | a :: rest =>
      if s.busy && s.delay == 0 then blockStep s
      else .next (hostStep Config.platform a rest s)

end Sys2Proof.Machine
end

