-- ==== Sys2Proof/Machine/Step.lean ====
section
/-! DEFINITION. One step of the machine, and the placing of one command as the very next step. -/

namespace Sys2Proof.Machine

/-- One step: the block's, the host's or reset's (`agentsStep`). -/
def step (s : State) : Host.Outcome State Fault Refusal := agentsStep s

/-- The state with a command word latched, as a CMD write leaves it (20_memory.md R57), and due at once, so that the
very next step runs it (assumption log 11). -/
def State.withFetchWord (s : State) (nbits w : Nat) : State := s.latch (tableWord nbits w)

end Sys2Proof.Machine
end

