-- ==== Sys2Proof/Machine/HostProgram.lean ====
section
/-! DEFINITION. The host-program syntax of 30_encoding.md R88 and R89, as lists of host actions. An operand outside its
range is refused and never truncated (R88). -/

namespace Sys2Proof.Machine

/-- The host access mnemonics (R88). -/
def hostSb (off : Nat) (v : Byte) : HostAction := .write off [v]
def hostSh (off : Nat) (v : BitVec 16) : HostAction := .write off [v.extractLsb' 0 8, v.extractLsb' 8 8]
def hostSw (off : Nat) (v : Word) : HostAction := .write off (leBytes32 v)
def hostLb (off : Nat) : HostAction := .read off 1
def hostLh (off : Nat) : HostAction := .read off 2
def hostLw (off : Nat) : HostAction := .read off 4

/-- `fill`: one `sb` per byte, in increasing offset order (R88). -/
def hostFill : Nat → List Byte → List HostAction
  | _, [] => []
  | off, b :: bs => hostSb off b :: hostFill (off + 1) bs

/-- `run` on a command word (R89): `sw 0x228, <word>` then `poll`. -/
def hostRunWord (v : Word) : List HostAction := [hostSw offCmd v, .poll]

/-- `run <command>` (R89). -/
def hostRun (i : Instr) : List HostAction := hostRunWord (encodeWord i)

/-- An `<off>` or `<len>` operand: a number from 0 to 255 (R88). -/
def asmByte (n : Nat) : Option (BitVec 8) := if n < 256 then some (BitVec.ofNat 8 n) else none

/-- A `<rev>` operand given as a number from 0 to 15 (R88). -/
def asmRev (n : Nat) : Option (BitVec 4) := if n < 16 then some (BitVec.ofNat 4 n) else none

/-- `cksum <src>, <off>, <len>` (R88). -/
def asmCksum (src : Src) (off len : Nat) : Option Instr :=
  match asmByte off, asmByte len with
  | some o, some l => some (.cksum src o l)
  | _, _ => none

/-- `khash <rev>, <src>, <off>, <len>` (R88). -/
def asmKhash (rev : Nat) (src : Src) (off len : Nat) : Option Instr :=
  match asmRev rev, asmByte off, asmByte len with
  | some r, some o, some l => some (.khash r src o l)
  | _, _, _ => none

/-- `rc4x <src>, <off>, <len>` (R88). -/
def asmRc4x (src : Src) (off len : Nat) : Option Instr :=
  match asmByte off, asmByte len with
  | some o, some l => some (.rc4x src o l)
  | _, _ => none

/-- `encode <rev>` (R88). -/
def asmEncode (rev : Nat) : Option Instr :=
  match asmRev rev with
  | some r => some (.encode r)
  | none => none

/-- `cksum.factory <src>` (R89). -/
def cksumFactory (src : Src) : Instr := .cksum src 0x34 44
/-- `cksum.user <src>` (R89). -/
def cksumUser (src : Src) : Instr := .cksum src 0x64 92
/-- `khash.tag <rev>, <src>` (R89). -/
def khashTag (rev : BitVec 4) (src : Src) : Instr := .khash rev src 0x00 20
/-- `khash.pb <rev>, <src>` (R89). -/
def khashPb (rev : BitVec 4) (src : Src) : Instr := .khash rev src 0x14 28
/-- `rc4x.pb <src>` (R89). -/
def rc4xPb (src : Src) : Instr := .rc4x src 0x14 28

end Sys2Proof.Machine
end

