-- ==== Sys2Proof/WellFormed.lean ====
section
/-! DEFINITION. Well-formed commands: those that pass checks 4 to 6 of 60_exceptions.md R227 (checks 1 to 3 are the
decoder's). A command that is not well-formed still decodes and still has a meaning: it reports the error of the
first check it fails. -/

namespace Sys2Proof

/-- Check 4: the revision code is one of the four supported ones (30_encoding.md R83). -/
def Instr.revOk (rev : BitVec 4) : Bool := decide (rev.toNat < 4)

/-- Check 5: offset and length are multiples of 4 (60_exceptions.md R225). -/
def Instr.alignOk (off len : BitVec 8) : Bool := off.toNat % 4 == 0 && len.toNat % 4 == 0

/-- Check 6: the region ends inside the 256-byte buffer (60_exceptions.md R226). -/
def Instr.rangeOk (off len : BitVec 8) : Bool := decide (off.toNat + len.toNat ≤ 256)

/-- A command whose operands every check of R227 accepts. -/
def Instr.wellFormed : Instr → Bool
  | .nop => true
  | .cksum _ off len => Instr.alignOk off len && Instr.rangeOk off len
  | .khash rev _ off len => Instr.revOk rev && Instr.rangeOk off len
  | .rc4x _ off len => Instr.rangeOk off len
  | .decode => true
  | .encode rev => Instr.revOk rev

end Sys2Proof
end

