-- ==== Sys2Proof/Safety.lean ====
section
/-! DEFINITION. What counts as a legal state, a ready command and a finished run, in the terms the statements use. -/

namespace Sys2Proof.Machine

/-- The region `buf[off .. off+len(B))` holds the bytes `B`; in particular none of its cells is ⊥ (10_state.md R38). -/
abbrev State.holds (s : State) (b : Buffer) (off : Nat) (B : List Byte) : Prop :=
  ∀ k < B.length, s.cell? b (off + k) = B[k]?

/-- `index` is the first ⊥ cell of the region of `n` cells from `off` on. -/
abbrev State.firstUndef (s : State) (b : Buffer) (off n index : Nat) : Prop :=
  off ≤ index ∧ index < off + n ∧ s.cell? b index = none ∧ ∀ j < index, off ≤ j → s.cell? b j ≠ none

/-- STATUS holds a legal value (10_state.md R25): reserved bits 0, ERR 0 to 5, RREV 0 to 3 or 0xF, RREV not 0xF only
with ERR = OK, and BUSY = 1 only in the value a launch writes. -/
abbrev statusLegal (v : Word) : Prop :=
  statusReserved v = 0 ∧ (statusErr v).toNat ≤ 5 ∧ ((statusRrev v).toNat ≤ 3 ∨ statusRrev v = rrevNone) ∧
    (statusRrev v ≠ rrevNone → statusErr v = 0) ∧ (statusBusy v = true → v = launchStatus)

/-- Every listed cell is a cell of IN, OUT or DIGEST (20_memory.md R51). -/
abbrev Memory.inRows (m : Memory) : Prop := ∀ c ∈ m, c.1 < 0x214

/-- The machine's invariant: canonical memory over the three buffers only, a legal STATUS, and a latched word whenever
a command is pending. -/
structure State.Inv (s : State) : Prop where
  memWf : s.mem.wf
  memRows : s.mem.inRows
  statusOk : statusLegal s.status
  latched : s.busy = true → s.pending ≠ none

/-- The block's step is next: BUSY, no fault, and the host has no turn left before it (70_reset_and_hazards.md R254,
R255). -/
abbrev State.blockDue (s : State) : Prop :=
  s.fault = none ∧ s.busy = true ∧ (s.hostQueue = [] ∨ s.delay = 0)

/-- The host's action `a` is next: no fault, and either no command is pending or the host still has a turn before the
block step. -/
abbrev State.hostDue (s : State) (a : HostAction) (rest : List HostAction) : Prop :=
  s.fault = none ∧ s.hostQueue = a :: rest ∧ (s.busy = false ∨ s.delay ≠ 0)

/-- A run has ended (70_reset_and_hazards.md R260). -/
abbrev State.isFinal (s : State) : Prop := s.hostQueue = [] ∧ s.busy = false ∧ s.fault = none

end Sys2Proof.Machine
end

