-- ==== Sys2Proof/Certificates/Slice0/Obligations.lean ====
section
/-! DEFINITION. The statements for the provers. Each docstring names the rule of spec/ it formalises; "log n" is
notes/assumptions/n.md. -/

open Sys2Proof Sys2Proof.Machine

/-! ## Encoding (30_encoding.md) -/

/-- R81, R84, R85: decoding an encoded command gives it back, with every operand at every value of its field. -/
def Obligations.DecodeOfEncodeIsIdentity : Prop :=
  ∀ i : Instr, decodeWord (encodeWord i) = .ok i

/-- R85 ("each opcode has exactly one encoding pattern"), 92 D8: a word that decodes is the encoding of what it
decodes to, so no two words stand for one command. -/
def Obligations.EncodeOfDecodeIsIdentity : Prop :=
  ∀ (v : Word) (i : Instr), decodeWord v = .ok i → encodeWord i = v

/-- R90: the worked encodings, and the four illegal words. -/
def Obligations.WorkedEncodingsDecode : Prop :=
  decodeWord 0x00000000 = .ok .nop ∧
  decodeWord 0x08000001 = .ok (.cksum .inBuf 0 8) ∧
  decodeWord 0x5C641001 = .ok (.cksum .outBuf 0x64 92) ∧
  decodeWord 0x14000102 = .ok (.khash 1 .inBuf 0x00 20) ∧
  decodeWord 0x1C141102 = .ok (.khash 1 .outBuf 0x14 28) ∧
  decodeWord 0x1C141003 = .ok (.rc4x .outBuf 0x14 28) ∧
  decodeWord 0x00000004 = .ok .decode ∧
  decodeWord 0x00000305 = .ok (.encode 3) ∧
  decodeWord 0x00000405 = .ok (.encode 4) ∧
  decodeWord 0x00000006 = .error (.illegalOpcode 6) ∧
  decodeWord 0x00002004 = .error .reservedBits ∧
  decodeWord 0x00000104 = .error .unusedField ∧
  decodeWord 0x00000401 = .error .unusedField

/-- R88: the word a mnemonic assembles to, as the sum of its shifted operands, and, for each mnemonic with operands, the
refusal of any operand out of its range. -/
def Obligations.AssemblerWordsAndRanges : Prop :=
  (∀ src off len, (encodeWord (.cksum src off len)).toNat =
    len.toNat * 2 ^ 24 + off.toNat * 2 ^ 16 + (bitOfSrc src).toNat * 2 ^ 12 + 1) ∧
  (∀ rev src off len, (encodeWord (.khash rev src off len)).toNat =
    len.toNat * 2 ^ 24 + off.toNat * 2 ^ 16 + (bitOfSrc src).toNat * 2 ^ 12 + rev.toNat * 2 ^ 8 + 2) ∧
  (∀ src off len, (encodeWord (.rc4x src off len)).toNat =
    len.toNat * 2 ^ 24 + off.toNat * 2 ^ 16 + (bitOfSrc src).toNat * 2 ^ 12 + 3) ∧
  (∀ rev, (encodeWord (.encode rev)).toNat = rev.toNat * 2 ^ 8 + 5) ∧
  (∀ rev src off len,
    if rev < 16 ∧ off < 256 ∧ len < 256 then
      asmKhash rev src off len = some (.khash (BitVec.ofNat 4 rev) src (BitVec.ofNat 8 off) (BitVec.ofNat 8 len))
    else asmKhash rev src off len = none) ∧
  (∀ src off len,
    if off < 256 ∧ len < 256 then asmCksum src off len = some (.cksum src (BitVec.ofNat 8 off) (BitVec.ofNat 8 len))
    else asmCksum src off len = none) ∧
  (∀ src off len,
    if off < 256 ∧ len < 256 then asmRc4x src off len = some (.rc4x src (BitVec.ofNat 8 off) (BitVec.ofNat 8 len))
    else asmRc4x src off len = none) ∧
  (∀ rev, if rev < 16 then asmEncode rev = some (.encode (BitVec.ofNat 4 rev)) else asmEncode rev = none)

/-- R222: the words that are no command are exactly those with OP ≥ 6, RSV ≠ 0 or a non-zero field that R85 marks 0,
and a latched one is reported as ILLEGAL_COMMAND with no other effect. -/
def Obligations.IllegalWordsAreReported : Prop :=
  ∀ v : Word,
    let illegal : Prop :=
      6 ≤ (v.extractLsb' 0 8).toNat ∨ v.extractLsb' 13 3 ≠ 0 ∨
      ((v.extractLsb' 0 8 = 0 ∨ v.extractLsb' 0 8 = 4) ∧ v.extractLsb' 8 24 ≠ 0) ∨
      ((v.extractLsb' 0 8 = 1 ∨ v.extractLsb' 0 8 = 3) ∧ v.extractLsb' 8 4 ≠ 0) ∨
      (v.extractLsb' 0 8 = 5 ∧ v.extractLsb' 12 20 ≠ 0)
    (illegal ↔ ∃ e, decodeWord v = .error e) ∧
    ∀ s : State, s.blockDue → s.pending = some v → illegal → step s = .next { s with status := 0x00000F01 }

/-- R227: `Validate` decides what the block step does with the latched word: the first failing check is reported, with
no effect but on STATUS, and a word that passes all six is run as the well-formed command it decodes to. -/
def Obligations.ValidationOrderIsTheStepsOrder : Prop :=
  ∀ (v : Word) (s : State), s.blockDue → s.pending = some v →
    (validate v ≠ .ok → step s = .next { s with status := doneStatus 0xF (validate v) }) ∧
    (validate v = .ok → ∃ i, decodeWord v = .ok i ∧ i.wellFormed = true ∧ step s = exec i s)

/-! ## The machine's step -/

/-- R87, R254: when the block is due and the latched word decodes, the step is the command's meaning, at the state
itself: on this hardware nothing else is added around it. -/
def Obligations.StepRunsTheDecodedCommand : Prop :=
  ∀ (s : State) (v : Word) (i : Instr), s.blockDue → s.pending = some v → decodeWord v = .ok i → step s = exec i s

/-- The model's choice (log 11): an idle machine whose host has nothing to do stays as it is. -/
def Obligations.IdleMachineWaits : Prop :=
  ∀ s : State, s.isFinal → step s = .next s

/-- R231: a faulted state is not final, no host step and no block step is enabled from it, and whatever next state it has
is what reset makes of it. That its step answers the fault when no reset is to come is log 5 (DEDUCED), and that reset is
an entry of the host queue, to which the step skips, is log 6 (DESIGN CHOICE). -/
def Obligations.FaultMarkStopsAllButReset : Prop :=
  ∀ (s : State) (f : Fault), s.fault = some f →
    ¬ s.isFinal ∧
    (HostAction.reset ∉ s.hostQueue → step s = .fault f) ∧
    (∀ t, step s = .next t → HostAction.reset ∈ s.hostQueue ∧ ∃ q, t = s.assertReset q)

/-- R250: the reset values, of the state after reset and of any state in which reset is the next input, whether a
command is pending or a fault is recorded. What the host has still to do stays (log 6). -/
def Obligations.ResetSetsEveryPieceOfState : Prop :=
  (∀ a, Memory.get? State.reset.mem a = none) ∧ State.reset.cksum = none ∧ State.reset.status = 0x00000F00 ∧
  State.reset.pending = none ∧ State.reset.fault = none ∧
  ∀ (s : State) (rest : List HostAction), s.hostQueue = .reset :: rest →
    (s.fault ≠ none ∨ s.busy = false ∨ s.delay ≠ 0) →
    ∃ t, step s = .next t ∧ (∀ a, Memory.get? t.mem a = none) ∧ t.cksum = none ∧ t.status = 0x00000F00 ∧
      t.pending = none ∧ t.fault = none ∧ t.hostQueue = rest

/-- R255, R257 with log 2: a poll at the head of the queue reads STATUS `delay` times and then the block is due, the
block's state being untouched meanwhile. -/
def Obligations.PollWaitsUntilTheBlockIsDue : Prop :=
  ∀ (s : State) (rest : List HostAction), s.fault = none → s.busy = true → s.hostQueue = .poll :: rest →
    ∃ t, Host.Core.run Sys2Proof.core s.delay s = .next t ∧ t.blockDue ∧ t.hostQueue = .poll :: rest ∧
      t.mem = s.mem ∧ t.cksum = s.cksum ∧ t.status = s.status ∧ t.pending = s.pending ∧
      t.hostReads = List.replicate s.delay ⟨0x224, 4, s.status⟩ ++ s.hostReads

/-- R89, R255, R257, R258: `run <command>` from an idle machine ends, after finitely many steps, with the effect of the
command on IN, OUT, DIGEST, CKSUM and STATUS, STATUS read last, and the host ready for its next access; unless the command
faults. That the steps are finitely many rests on R255's weak fairness as log 2 (DESIGN CHOICE) models it: a finite
latency, drawn at the launch. -/
def Obligations.RunPseudoInstructionCompletes : Prop :=
  ∀ (i : Instr) (s : State) (rest : List HostAction),
    s.fault = none → s.busy = false → s.hostQueue = hostRun i ++ rest →
    ∃ u, exec i { s with pending := some (encodeWord i), status := 0x80000F00 } = .next u ∧
      (u.fault = none → ∃ n t, Host.Core.run Sys2Proof.core n s = .next t ∧
        t.mem = u.mem ∧ t.cksum = u.cksum ∧ t.status = u.status ∧ t.fault = none ∧ t.busy = false ∧
        t.hostQueue = rest ∧ t.hostReads.head? = some ⟨0x224, 4, u.status⟩)

/-! ## The host window (20_memory.md part A) -/

/-- R50: the block decodes exactly the 1024 offsets from BASE on. -/
def Obligations.WindowIsDecodedAtBase : Prop :=
  ∀ (cfg : Config) (addr off : Nat),
    offsetOfAddress cfg addr = some off ↔ off < 0x400 ∧ addr = cfg.base + off

/-- R51, R52, R55: which accesses are admitted: the window map, its widths and rights, natural alignment, one row. For
offsets of 0x400 and above it is log 10 (DEDUCED). -/
def Obligations.AdmittedAccessesAreTheWindowMap : Prop :=
  ∀ (kind : AccessKind) (off n : Nat),
    admitted kind off n = true ↔
      (n = 1 ∨ n = 2 ∨ n = 4) ∧ off % n = 0 ∧
      (off + n ≤ 0x100 ∨ (0x100 ≤ off ∧ off + n ≤ 0x200) ∨ (0x200 ≤ off ∧ off + n ≤ 0x214) ∨
       (n = 4 ∧ kind = .read ∧ (off = 0x220 ∨ off = 0x224)) ∨ (n = 4 ∧ kind = .write ∧ off = 0x228))

/-- R52, R55, R230: while no command is pending, an access that is not admitted is not performed; it records BAD_ACCESS
with its offset, width and kind, and changes nothing else. For offsets of 0x400 and above it is log 10 (DEDUCED). -/
def Obligations.InadmissibleAccessIsBadAccess : Prop :=
  (∀ (s : State) (off n : Nat) (rest : List HostAction), s.hostDue (.read off n) rest → s.busy = false →
    admitted .read off n = false → step s = .next { s with fault := some (.badAccess off n .read) }) ∧
  (∀ (s : State) (off : Nat) (bytes : List Byte) (rest : List HostAction), s.hostDue (.write off bytes) rest →
    s.busy = false → admitted .write off bytes.length = false →
    step s = .next { s with fault := some (.badAccess off bytes.length .write) })

/-- R56, R256, R230: while a command is pending, any access but a 4-byte STATUS read records a fault and changes nothing
else: HAZARD with its offset, or, only if the access also breaks R52 or R55, possibly BAD_ACCESS (log 4). -/
def Obligations.AccessWhileBusyIsHazard : Prop :=
  (∀ (s : State) (off n : Nat) (rest : List HostAction), s.hostDue (.read off n) rest → s.busy = true →
    ¬ (off = 0x224 ∧ n = 4) →
    ∃ f, step s = .next { s with fault := some f } ∧
      (f = .hazard off ∨ (admitted .read off n = false ∧ f = .badAccess off n .read))) ∧
  (∀ (s : State) (off : Nat) (bytes : List Byte) (rest : List HostAction), s.hostDue (.write off bytes) rest →
    s.busy = true →
    ∃ f, step s = .next { s with fault := some f } ∧
      (f = .hazard off ∨ (admitted .write off bytes.length = false ∧ f = .badAccess off bytes.length .write)))

/-- R53, R56: a 4-byte read of STATUS is served whether or not a command is pending; it returns STATUS and changes no
state of the block. -/
def Obligations.StatusReadIsAlwaysServed : Prop :=
  ∀ (s : State) (rest : List HostAction), s.hostDue (.read 0x224 4) rest →
    step s = .next { s with
      hostQueue := rest, hostReads := ⟨0x224, 4, s.status⟩ :: s.hostReads, delay := s.delay - 1 }

/-- R53: an admitted read of a buffer returns the little-endian value of its cells and changes no state of the
block. -/
def Obligations.HostReadReturnsLittleEndianCells : Prop :=
  ∀ (s : State) (off : Nat) (bytes : List Byte) (rest : List HostAction),
    s.hostDue (.read off bytes.length) rest → s.busy = false → admitted .read off bytes.length = true → off < 0x214 →
    (∀ k < bytes.length, Memory.get? s.mem (off + k) = bytes[k]?) →
    ∃ v : Word, v.toNat = (bytes.mapIdx fun k b => b.toNat * 256 ^ k).sum ∧
      step s = .next { s with
        hostQueue := rest, hostReads := ⟨off, bytes.length, v⟩ :: s.hostReads, delay := s.delay - 1 }

/-- R38, R53: a host read of a ⊥ cell, or of CKSUM while it is ⊥, records UNDEF_READ with the access's offset and changes
nothing else. -/
def Obligations.HostReadOfUndefinedCellFaults : Prop :=
  (∀ (s : State) (off n k : Nat) (rest : List HostAction), s.hostDue (.read off n) rest → s.busy = false →
    admitted .read off n = true → off < 0x214 → k < n → Memory.get? s.mem (off + k) = none →
    step s = .next { s with fault := some (.undefReadHost off) }) ∧
  (∀ (s : State) (rest : List HostAction), s.hostDue (.read 0x220 4) rest → s.busy = false → s.cksum = none →
    step s = .next { s with fault := some (.undefReadHost 0x220) })

/-- R24, R53: a 4-byte read of CKSUM returns the last checksum. -/
def Obligations.HostReadsCksum : Prop :=
  ∀ (s : State) (v : Word) (rest : List HostAction), s.hostDue (.read 0x220 4) rest → s.busy = false →
    s.cksum = some v →
    step s = .next { s with
      hostQueue := rest, hostReads := ⟨0x220, 4, v⟩ :: s.hostReads, delay := s.delay - 1 }

/-- R53: an admitted write into a buffer stores its bytes, least significant first, in the cells from its offset on; every
other cell and every register is as before. -/
def Obligations.HostWriteStoresItsBytes : Prop :=
  ∀ (s : State) (off : Nat) (bytes : List Byte) (rest : List HostAction),
    s.hostDue (.write off bytes) rest → s.busy = false → admitted .write off bytes.length = true → off < 0x214 →
    ∃ t, step s = .next t ∧ t = { s with mem := t.mem, hostQueue := rest } ∧
      ∀ a, Memory.get? t.mem a =
        if off ≤ a ∧ a < off + bytes.length then bytes[a - off]? else Memory.get? s.mem a

/-- R53, R54: after `sw`, the narrower reads inside the word written return its halves and its bytes. -/
def Obligations.NarrowReadsAgreeWithTheWordWritten : Prop :=
  ∀ (s : State) (off : Nat) (v : Word) (rest : List HostAction),
    s.hostDue (hostSw off v) rest → s.busy = false → off % 4 = 0 → off < 0x214 →
    ∃ t, step s = .next t ∧ ∀ cfg : Config,
      (∀ k < 2, memRead cfg t (off + 2 * k) 2 = .ok (v >>> (16 * k) &&& 0xFFFF)) ∧
      (∀ k < 4, memRead cfg t (off + k) 1 = .ok (v >>> (8 * k) &&& 0xFF))

/-- R57: a 4-byte write of `v` to CMD while no command is pending latches it and sets STATUS to 0x80000F00; nothing
else of the block changes. How many host turns the command leaves is open (log 2). -/
def Obligations.CmdWriteLaunches : Prop :=
  ∀ (s : State) (v : Word) (rest : List HostAction), s.hostDue (hostSw 0x228 v) rest → s.busy = false →
    ∃ d, step s = .next { s with
      pending := some v, status := 0x80000F00, hostQueue := rest, delay := d, draws := s.draws + 1 }

/-- R57, R230: a read or a poll of the host changes no state of the block: either it faults, and the mark alone is set, or
no mark is set, one value more has been read, and only the model's own fields of the host (logs 1, 2) differ. -/
def Obligations.HostReadsHaveNoSideEffect : Prop :=
  ∀ (s t : State) (a : HostAction) (rest : List HostAction), s.hostDue a rest →
    (a = .poll ∨ ∃ off n, a = .read off n) → step s = .next t →
    (t.fault ≠ none ∧ t = { s with fault := t.fault }) ∨
    (t.fault = none ∧ (∃ r, t.hostReads = r :: s.hostReads) ∧
      t = { s with hostQueue := t.hostQueue, hostReads := t.hostReads, delay := t.delay })

/-! ## The commands: completion, result and frame

Each of these says that the command answers a next state, and which: the fields named, the cells named, and every other
field and cell as before. -/

/-- R207: NOP is the word 0 alone of those with OP = 0; it sets STATUS to 0x00000F00 and changes nothing else. -/
def Obligations.NopWritesOnlyStatus : Prop :=
  (∀ v : Word, v.extractLsb' 0 8 = 0 → if v = 0 then decodeWord v = .ok .nop else ∃ e, decodeWord v = .error e) ∧
  ∀ s : State, exec .nop s = .next { s with status := 0x00000F00 }

/-- R114: CKSUM of an aligned region inside the buffer whose cells hold `B`. -/
def Obligations.CksumStoresTheChecksum : Prop :=
  ∀ (src : Src) (off len : BitVec 8) (s : State) (B : List Byte),
    off.toNat % 4 = 0 → len.toNat % 4 = 0 → off.toNat + len.toNat ≤ 256 →
    B.length = len.toNat → s.holds (srcBuffer src) off.toNat B →
    exec (.cksum src off len) s = .next { s with cksum := some (checksum B), status := 0x00000F00 }

/-- R114, R225, R226, R227: CKSUM reports ALIGN before RANGE, and writes STATUS only. -/
def Obligations.CksumReportsAlignThenRange : Prop :=
  ∀ (src : Src) (off len : BitVec 8) (s : State),
    (off.toNat % 4 ≠ 0 ∨ len.toNat % 4 ≠ 0 →
      exec (.cksum src off len) s = .next { s with status := 0x00000F04 }) ∧
    (off.toNat % 4 = 0 ∧ len.toNat % 4 = 0 ∧ 256 < off.toNat + len.toNat →
      exec (.cksum src off len) s = .next { s with status := 0x00000F05 })

/-- R142: KHASH of a region inside the buffer whose cells hold `m`, under a supported revision: DIGEST takes the
keyed hash. -/
def Obligations.KhashStoresTheKeyedHash : Prop :=
  ∀ (r : Rev) (src : Src) (off len : BitVec 8) (s : State) (m : List Byte),
    off.toNat + len.toNat ≤ 256 → m.length = len.toNat → s.holds (srcBuffer src) off.toNat m →
    ∃ t, exec (.khash (revCode r) src off len) s = .next t ∧ t = { s with mem := t.mem, status := 0x00000F00 } ∧
      ∀ a, Memory.get? t.mem a =
        if 0x200 ≤ a ∧ a < 0x214 then (keyedHash Config.platform r m)[a - 0x200]? else Memory.get? s.mem a

/-- R142, R223, R226, R227: KHASH reports UNSUPPORTED_REVISION for the codes 4 to 15, before RANGE, and writes STATUS
only. -/
def Obligations.KhashReportsRevisionThenRange : Prop :=
  ∀ (rev : BitVec 4) (src : Src) (off len : BitVec 8) (s : State),
    (4 ≤ rev.toNat → exec (.khash rev src off len) s = .next { s with status := 0x00000F02 }) ∧
    (rev.toNat < 4 ∧ 256 < off.toNat + len.toNat →
      exec (.khash rev src off len) s = .next { s with status := 0x00000F05 })

/-- R165, R166: RC4X of a region whose cells hold `D`, with DIGEST holding `key`: the same offsets of OUT take the
XOR with the keystream, also when the source is OUT itself. -/
def Obligations.Rc4xStoresTheTransform : Prop :=
  ∀ (src : Src) (off len : BitVec 8) (s : State) (key D : List Byte),
    off.toNat + len.toNat ≤ 256 → key.length = 20 → s.holds .digest 0 key →
    D.length = len.toNat → s.holds (srcBuffer src) off.toNat D →
    ∃ t, exec (.rc4x src off len) s = .next t ∧ t = { s with mem := t.mem, status := 0x00000F00 } ∧
      ∀ a, Memory.get? t.mem a =
        if 0x100 + off.toNat ≤ a ∧ a < 0x100 + off.toNat + len.toNat then (rc4 key D)[a - (0x100 + off.toNat)]?
        else Memory.get? s.mem a

/-- R165, R226: RC4X reports RANGE for a region that ends beyond 256, and writes STATUS only. -/
def Obligations.Rc4xReportsRange : Prop :=
  ∀ (src : Src) (off len : BitVec 8) (s : State), 256 < off.toNat + len.toNat →
    exec (.rc4x src off len) s = .next { s with status := 0x00000F05 }

/-- R181, R183, R185: DECODE of an image `raw` in IN: on a match, OUT takes the decoded image and STATUS the matched code;
the decoded image is `raw` with its protected block replaced by the candidate plaintext, every other byte copied. With no
match, STATUS takes DECODE_FAILURE and nothing else changes. -/
def Obligations.DecodeResolvesTheImage : Prop :=
  ∀ (s : State) (raw : List Byte), raw.length = 256 → s.holds .inBuf 0 raw →
    ∃ t, exec .decode s = .next t ∧
      match resolve Config.platform raw with
      | some (img, r) =>
        t = { s with mem := t.mem, status := doneStatus (revCode r) .ok } ∧ img.length = 256 ∧
          img.take 0x14 = raw.take 0x14 ∧ img.drop 0x30 = raw.drop 0x30 ∧
          slice img 0x14 0x30 = candidatePlain Config.platform raw r ∧
          candidatePlain Config.platform raw r =
            rc4 (keyedHash Config.platform r (raw.take 0x14)) (slice raw 0x14 0x30) ∧
          ∀ a, Memory.get? t.mem a = if 0x100 ≤ a ∧ a < 0x200 then img[a - 0x100]? else Memory.get? s.mem a
      | none => t = { s with status := 0x00000F03 }

/-- R200, R202, R203, R204, R205: ENCODE under a supported revision of an image whose protected block, factory and user
sections and tail are held by IN; the input's tag and checksum fields may be ⊥. -/
def Obligations.EncodeWritesTheEncodedImage : Prop :=
  ∀ (r : Rev) (s : State) (block factory user tail : List Byte),
    block.length = 28 → factory.length = 44 → user.length = 92 → tail.length = 64 →
    s.holds .inBuf 0x14 block → s.holds .inBuf 0x34 factory → s.holds .inBuf 0x64 (user ++ tail) →
    let tag := keyedHash Config.platform r block
    let key := keyedHash Config.platform r tag
    let img := tag ++ rc4 key block ++ leBytes32 (checksum factory) ++ factory
      ++ leBytes32 (checksum user) ++ user ++ tail
    ∃ t, exec (.encode (revCode r)) s = .next t ∧ t = { s with mem := t.mem, status := 0x00000F00 } ∧
      ∀ a, Memory.get? t.mem a = if 0x100 ≤ a ∧ a < 0x200 then img[a - 0x100]? else Memory.get? s.mem a

/-- R201: ENCODE with a REV of 4 to 15 reports UNSUPPORTED_REVISION whatever IN holds, and writes STATUS only. -/
def Obligations.EncodeRejectsUnsupportedRevision : Prop :=
  ∀ (rev : BitVec 4) (s : State), 4 ≤ rev.toNat →
    exec (.encode rev) s = .next { s with status := 0x00000F02 }

/-- R38, R230, R254: a valid command whose read set holds ⊥ records UNDEF_READ with the buffer and the index of the
first such cell, DIGEST before the source region for RC4X, and changes nothing else. -/
def Obligations.CommandReadingUndefinedCellFaults : Prop :=
  (∀ src off len (s : State) k, (Instr.cksum src off len).wellFormed = true →
    s.firstUndef (srcBuffer src) off.toNat len.toNat k →
    exec (.cksum src off len) s = .next { s with fault := some (.undefReadBlock (srcBuffer src) k) }) ∧
  (∀ rev src off len (s : State) k, (Instr.khash rev src off len).wellFormed = true →
    s.firstUndef (srcBuffer src) off.toNat len.toNat k →
    exec (.khash rev src off len) s = .next { s with fault := some (.undefReadBlock (srcBuffer src) k) }) ∧
  (∀ src off len (s : State) k, (Instr.rc4x src off len).wellFormed = true → s.firstUndef .digest 0 20 k →
    exec (.rc4x src off len) s = .next { s with fault := some (.undefReadBlock .digest k) }) ∧
  (∀ src off len (s : State) k, (Instr.rc4x src off len).wellFormed = true →
    (∀ j < 20, s.cell? .digest j ≠ none) → s.firstUndef (srcBuffer src) off.toNat len.toNat k →
    exec (.rc4x src off len) s = .next { s with fault := some (.undefReadBlock (srcBuffer src) k) }) ∧
  (∀ (s : State) k, s.firstUndef .inBuf 0 256 k →
    exec .decode s = .next { s with fault := some (.undefReadBlock .inBuf k) }) ∧
  (∀ rev (s : State) k, (Instr.encode rev).wellFormed = true →
    (0x14 ≤ k ∧ k < 0x30 ∨ 0x34 ≤ k ∧ k < 0x60 ∨ 0x64 ≤ k ∧ k < 0x100) → s.cell? .inBuf k = none →
    (∀ j < k, (0x14 ≤ j ∧ j < 0x30 ∨ 0x34 ≤ j ∧ j < 0x60 ∨ 0x64 ≤ j) → s.cell? .inBuf j ≠ none) →
    exec (.encode rev) s = .next { s with fault := some (.undefReadBlock .inBuf k) })

/-! ## Rules over all commands and steps -/

/-- R228: every command answers a next state in one of three ways: it raises UNDEF_READ and sets the mark only; it
reports an error and writes STATUS only; or it succeeds, with BUSY = 0, ERR = OK and RREV = 0xF in STATUS, a DECODE's
RREV being the code of the revision that the image in IN resolves to. -/
def Obligations.EveryCommandFaultsReportsOrSucceeds : Prop :=
  ∀ (i : Instr) (s : State), ∃ t, exec i s = .next t ∧
    ((∃ b k, t = { s with fault := some (.undefReadBlock b k) }) ∨
     (∃ e, e ≠ Err.ok ∧ t = { s with status := doneStatus 0xF e }) ∨
     (t = { s with mem := t.mem, cksum := t.cksum, status := t.status } ∧
      if i = .decode then
        ∃ raw img r, raw.length = 256 ∧ s.holds .inBuf 0 raw ∧ resolve Config.platform raw = some (img, r) ∧
          t.status = doneStatus (revCode r) .ok
      else t.status = 0x00000F00))

/-- R21, R22, R23, R24, 92 D34: no command writes IN; only KHASH writes DIGEST; only RC4X, DECODE and ENCODE write OUT;
only CKSUM writes the register CKSUM; PENDING and the model's own fields are no command's to write. -/
def Obligations.CommandsWriteOnlyTheirOwnState : Prop :=
  ∀ (i : Instr) (s t : State), exec i s = .next t →
    t.pending = s.pending ∧ t.hostQueue = s.hostQueue ∧ t.hostReads = s.hostReads ∧ t.delay = s.delay ∧
    t.draws = s.draws ∧
    (∀ a, a < 0x100 → Memory.get? t.mem a = Memory.get? s.mem a) ∧
    (∀ a, 0x214 ≤ a → Memory.get? t.mem a = Memory.get? s.mem a) ∧
    ((∀ r src off len, i ≠ .khash r src off len) →
      ∀ a, 0x200 ≤ a → Memory.get? t.mem a = Memory.get? s.mem a) ∧
    ((∀ src off len, i ≠ .rc4x src off len) → i ≠ .decode → (∀ r, i ≠ .encode r) →
      ∀ a, a < 0x200 → Memory.get? t.mem a = Memory.get? s.mem a) ∧
    ((∀ src off len, i ≠ .cksum src off len) → t.cksum = s.cksum)

/-- R25 ("STATUS changes in three cases"): a step that changes STATUS is a launch, the end of a command, or reset. -/
def Obligations.StatusChangesInThreeCases : Prop :=
  ∀ s t : State, step s = .next t → t.status ≠ s.status →
    (t.status = 0x80000F00 ∧ s.busy = false ∧
      ∃ bytes rest, bytes.length = 4 ∧ s.hostQueue = .write 0x228 bytes :: rest) ∨
    (s.blockDue ∧ ∃ rrev e, t.status = doneStatus rrev e) ∨
    (t.status = 0x00000F00 ∧ HostAction.reset ∈ s.hostQueue)

/-- The invariant of the model, which every step keeps, from every state that has it: memory in canonical form and over
IN, OUT and DIGEST only, STATUS at a legal value with its reserved bits 0 (R25), a latched word whenever BUSY (R27). -/
def Obligations.EveryStepKeepsTheInvariant : Prop :=
  ∀ s t : State, s.Inv → step s = .next t → t.Inv

/-- The state after reset has the invariant. -/
def Obligations.ResetHasTheInvariant : Prop := State.reset.Inv

/-! ## The checksum engine (40_checksum.md) -/

/-- R111: the halves together hold the sum of the words modulo 2^64. -/
def Obligations.AccumulatorIsTheSixtyFourBitSum : Prop :=
  ∀ B : List Byte,
    (accumulateAll B).hi.toNat * 2 ^ 32 + (accumulateAll B).lo.toNat = ((leWords B).map (·.toNat)).sum % 2 ^ 64

/-- R112: the result is the one's complement of the sum of the halves modulo 2^32; the carry is dropped, so the words
FFFFFFFF, FFFFFFFF, 00000001 give FFFFFFFF. -/
def Obligations.ChecksumDropsTheCarry : Prop :=
  (∀ B : List Byte, (checksum B).toNat =
    2 ^ 32 - 1 - ((accumulateAll B).hi.toNat + (accumulateAll B).lo.toNat) % 2 ^ 32) ∧
  checksum (List.replicate 8 0xFF ++ [1, 0, 0, 0]) = 0xFFFFFFFF

/-- R116, R118: 1 to 63 words of FFFFFFFF give 0; zero words, none included, give FFFFFFFF. -/
def Obligations.ChecksumOfUniformRegions : Prop :=
  (∀ n, 1 ≤ n → n ≤ 63 → checksum (List.replicate (4 * n) 0xFF) = 0) ∧
  (∀ n, checksum (List.replicate (4 * n) 0) = 0xFFFFFFFF)

/-! ## The key schedule (41_key_schedule.md) -/

/-- R133: the 80 words of the message schedule of a 64-byte block: the block's big-endian words (R132), and from word 16 on
the recurrence. -/
def Obligations.ScheduleFollowsTheRecurrence : Prop :=
  ∀ M : List Byte, M.length = 64 →
    (schedule M).length = 80 ∧
    (∀ t < 16, (schedule M)[t]? = some (beValue (slice M (4 * t) (4 * t + 4)))) ∧
    ∀ t, 16 ≤ t → t < 80 →
      (schedule M)[t]? = some (rotl32 ((schedule M).getD (t - 3) 0 ^^^ (schedule M).getD (t - 8) 0 ^^^
        (schedule M).getD (t - 14) 0 ^^^ (schedule M).getD (t - 16) 0) 1)

/-- R134, bit by bit: f_t chooses c or d by b in rounds 0 to 19, is the majority of b, c and d in rounds 40 to 59 and their
parity in the others; K_t is the constant of its twenty rounds. -/
def Obligations.RoundFunctionsAndConstants : Prop :=
  ∀ (t : Nat) (b c d : Word), t < 80 →
    (∀ i < 32, (roundF t b c d).getLsbD i =
      if t < 20 then (if b.getLsbD i then c.getLsbD i else d.getLsbD i)
      else if 40 ≤ t ∧ t < 60 then
        decide (2 ≤ (b.getLsbD i).toNat + (c.getLsbD i).toNat + (d.getLsbD i).toNat)
      else decide (((b.getLsbD i).toNat + (c.getLsbD i).toNat + (d.getLsbD i).toNat) % 2 = 1)) ∧
    roundK t =
      if t < 20 then 0x5A827999 else if t < 40 then 0x6ED9EBA1 else if t < 60 then 0x8F1BBCDC else 0xCA62C1D6

/-- R135: Compress runs the 80 rounds from the chaining state, each with its schedule word, and adds the chaining state to
what they leave; the rotates are rotations of 32 bits (R11). -/
def Obligations.CompressionRunsTheEightyRounds : Prop :=
  ∀ (H : Chain) (M : List Byte), M.length = 64 →
    ∃ s : Nat → Chain, s 0 = H ∧
      (∀ t < 80, s (t + 1) =
        ⟨(s t).a.rotateLeft 5 + roundF t (s t).b (s t).c (s t).d + (s t).e + roundK t + (schedule M).getD t 0,
          (s t).a, (s t).b.rotateLeft 30, (s t).c, (s t).d⟩) ∧
      compress H M = ⟨H.a + (s 80).a, H.b + (s 80).b, H.c + (s 80).c, H.d + (s 80).d, H.e + (s 80).e⟩

/-- R136, R137, R138, R139: the seeded hash starts from the seed's words in order, compresses each padded block once, in
order, and answers the 20 bytes of the last chaining state, each word most significant byte first. R140: KeyedHash is the
seeded hash under SeedA, and of its 20 bytes the seeded hash under SeedB. -/
def Obligations.KeyedHashChainsThePaddedBlocks : Prop :=
  (∀ (p : Nat) (seed : Vector Word 5) (m : List Byte),
    ∃ H : Nat → Chain, H 0 = ⟨seed[0], seed[1], seed[2], seed[3], seed[4]⟩ ∧
      (∀ n < (pad p m).length / 64, H (n + 1) = compress (H n) (slice (pad p m) (64 * n) (64 * n + 64))) ∧
      (seededSha1 p seed m).length = 20 ∧
      let E := H ((pad p m).length / 64)
      ∀ k < 5, ∀ j < 4, (seededSha1 p seed m)[4 * k + j]? =
        some (([E.a, E.b, E.c, E.d, E.e].getD k 0 >>> (24 - 8 * j)).setWidth 8)) ∧
  ∀ (cfg : Config) (r : Rev) (m : List Byte),
    keyedHash cfg r m =
      seededSha1 cfg.prefixLen (cfg.seedB r) (seededSha1 cfg.prefixLen (cfg.seedA r) m)

/-- R131: padding starts with the message and 0x80, ends with the bit length as a big-endian u64, holds zeros between the
two, and fills whole 64-byte blocks, `floor((len(m) + 8) / 64) + 1` of them whatever PREFIX_LEN is. -/
def Obligations.PaddingFillsWholeBlocks : Prop :=
  ∀ (p : Nat) (m : List Byte),
    (pad p m).length = 64 * ((m.length + 8) / 64 + 1) ∧
    (m ++ [0x80]) <+: pad p m ∧ beBytes64 (BitVec.ofNat 64 (8 * (p + m.length))) <:+ pad p m ∧
    ∀ i, m.length + 1 ≤ i → i + 8 < (pad p m).length → (pad p m)[i]? = some 0

/-- R144: with PREFIX_LEN = 64 and the seeds of a 64-byte key block, the keyed hash is HMAC-SHA1. -/
def Obligations.KeyedHashIsHmacUnderKeyBlockSeeds : Prop :=
  ∀ (K m : List Byte) (r : Rev), K.length = 64 → keyedHash (hmacConfig K) r m = hmacSha1 K m

/-! ## The stream cipher (42_stream_cipher.md) -/

/-- R162: byte k of the transform is byte k of the data XOR byte k of the keystream, and the transform is its own
inverse. -/
def Obligations.Rc4IsItsOwnInverse : Prop :=
  ∀ key D : List Byte,
    (rc4 key D).length = D.length ∧
    (∀ k < D.length, (rc4 key D)[k]? = some (D.getD k 0 ^^^ (prga D.length (ksa key) 0 0).getD k 0)) ∧
    rc4 key (rc4 key D) = D

/-- R160: key scheduling only swaps, so S stays a permutation of the 256 byte values. -/
def Obligations.KeyScheduleYieldsAPermutation : Prop :=
  ∀ key : List Byte, (ksa key).Perm ((List.range 256).map (BitVec.ofNat 8))

/-- R160: the key scheduling loop, entry by entry: from the identity and j = 0, turn i adds S[i] and key[i mod 20] to j and
swaps the entries i and j. -/
def Obligations.KeySchedulingFollowsItsLoop : Prop :=
  ∀ key : List Byte, key.length = 20 →
    ∃ (S : Nat → Byte → Byte) (j : Nat → Byte),
      (∀ x, S 0 x = x) ∧ j 0 = 0 ∧
      (∀ i < 256,
        j (i + 1) = j i + S i (BitVec.ofNat 8 i) + key.getD (i % 20) 0 ∧
        ∀ x, S (i + 1) x =
          if x = BitVec.ofNat 8 i then S i (j (i + 1))
          else if x = j (i + 1) then S i (BitVec.ofNat 8 i) else S i x) ∧
      (ksa key).length = 256 ∧ ∀ x : Byte, (ksa key)[x.toNat]? = some (S 256 x)

/-- R161: the generation loop, entry by entry: from i = j = 0, each turn adds 1 to i and S[i] to j, swaps the entries i and
j, and gives the byte at S[i] + S[j], the first turn the first byte. -/
def Obligations.KeystreamFollowsItsLoop : Prop :=
  ∀ (n : Nat) (T : List Byte), T.length = 256 →
    ∃ (S : Nat → Byte → Byte) (i j : Nat → Byte),
      (∀ x : Byte, T[x.toNat]? = some (S 0 x)) ∧ i 0 = 0 ∧ j 0 = 0 ∧
      (∀ k < n,
        i (k + 1) = i k + 1 ∧ j (k + 1) = j k + S k (i (k + 1)) ∧
        (∀ x, S (k + 1) x =
          if x = i (k + 1) then S k (j (k + 1)) else if x = j (k + 1) then S k (i (k + 1)) else S k x) ∧
        (prga n T 0 0)[k]? = some (S (k + 1) (S (k + 1) (i (k + 1)) + S (k + 1) (j (k + 1))))) ∧
      (prga n T 0 0).length = n

/-! ## The resolver and the facade (43_revision_resolver.md, 44_codec_facade.md) -/

/-- R187: the first candidate accepted wins, whatever later candidates would give. -/
def Obligations.ResolverTakesTheFirstMatch : Prop :=
  ∀ (cfg : Config) (raw : List Byte),
    (∀ r img, resolve cfg raw = some (img, r) ↔
      img = decodedImage cfg raw r ∧ accepts cfg raw r = true ∧
      ∀ r', (revCode r').toNat < (revCode r).toNat → accepts cfg raw r' = false) ∧
    (resolve cfg raw = none ↔ ∀ r, accepts cfg raw r = false)

/-- R182: a candidate is accepted exactly when all 20 bytes of its keyed hash equal the tag. -/
def Obligations.AcceptanceComparesTheWholeTag : Prop :=
  ∀ (cfg : Config) (raw : List Byte) (r : Rev), raw.length = 256 →
    (accepts cfg raw r = true ↔
      ∀ k < 20, (keyedHash cfg r (candidatePlain cfg raw r))[k]? = raw[k]?)

/-- R186, R188: bytes 0x30 to 0xFF do not affect the outcome of decoding and appear in the output unchanged. -/
def Obligations.UnauthenticatedBytesPassThrough : Prop :=
  ∀ (cfg : Config) (raw raw' : List Byte), raw.length = 256 → raw'.length = 256 → raw.take 0x30 = raw'.take 0x30 →
    (resolve cfg raw).map (·.2) = (resolve cfg raw').map (·.2) ∧
    ∀ img r, resolve cfg raw = some (img, r) → img.drop 0x30 = raw.drop 0x30

/-- R206: what ENCODE writes depends on REV and on IN[0x14..0x30), IN[0x34..0x60) and IN[0x64..0x100) alone. -/
def Obligations.EncodeDependsOnlyOnItsReadSet : Prop :=
  ∀ (rev : BitVec 4) (s s' t t' : State),
    (∀ k, (0x14 ≤ k ∧ k < 0x30 ∨ 0x34 ≤ k ∧ k < 0x60 ∨ 0x64 ≤ k ∧ k < 0x100) →
      s.cell? .inBuf k = s'.cell? .inBuf k ∧ s.cell? .inBuf k ≠ none) →
    rev.toNat < 4 → exec (.encode rev) s = .next t → exec (.encode rev) s' = .next t' →
    ∀ k < 256, t.cell? .outBuf k = t'.cell? .outBuf k ∧ t.cell? .outBuf k ≠ none

/-- R115, R202 (program P2 of 95_test_vectors.md): after ENCODE, `cksum.factory out` and `cksum.user out` compute the two
checksums that OUT stores. -/
def Obligations.EncodedImageStoresItsOwnChecksums : Prop :=
  ∀ (r : Rev) (s : State), (∀ k < 256, s.cell? .inBuf k ≠ none) →
    ∃ t, exec (.encode (revCode r)) s = .next t ∧
      ∃ f u : Word,
        t.holds .outBuf 0x30 (leBytes32 f) ∧ exec (cksumFactory .outBuf) t = .next { t with cksum := some f } ∧
        t.holds .outBuf 0x60 (leBytes32 u) ∧ exec (cksumUser .outBuf) t = .next { t with cksum := some u }

/-- R181 by the unit commands (program P3 of 95_test_vectors.md): `khash.tag`, `rc4x.pb` and `khash.pb` leave the candidate
plaintext in OUT, and DIGEST equal to the tag exactly when the resolver accepts the candidate. -/
def Obligations.UnitCommandsReproduceTheResolver : Prop :=
  ∀ (r : Rev) (s : State) (raw : List Byte), raw.length = 256 → s.holds .inBuf 0 raw →
    ∃ s1 s2 s3, exec (khashTag (revCode r) .inBuf) s = .next s1 ∧ exec (rc4xPb .inBuf) s1 = .next s2 ∧
      exec (khashPb (revCode r) .outBuf) s2 = .next s3 ∧
      s3.holds .outBuf 0x14 (candidatePlain Config.platform raw r) ∧
      (s3.holds .digest 0 (raw.take 20) ↔ accepts Config.platform raw r = true)

/-- R208: the round trip. An image `D` encoded under `r`, copied from OUT to IN and decoded, comes back with revision `r`
and its tag and checksums recomputed, if no earlier candidate validates it. Which candidates do is open with SEED (log
3). -/
def Obligations.EncodeThenDecodeRoundTrips : Prop :=
  ∀ (r : Rev) (s : State) (D : List Byte), D.length = 256 →
    s.holds .inBuf 0x14 (slice D 0x14 0x30) → s.holds .inBuf 0x34 (slice D 0x34 0x60) →
    s.holds .inBuf 0x64 (slice D 0x64 0x100) →
    ∃ t E, exec (.encode (revCode r)) s = .next t ∧ E.length = 256 ∧ t.holds .outBuf 0 E ∧
      ∀ u : State, u.holds .inBuf 0 E →
        (∀ r', (revCode r').toNat < (revCode r).toNat → accepts Config.platform E r' = false) →
        ∃ w, exec .decode u = .next w ∧ w.status = doneStatus (revCode r) .ok ∧
          w.holds .outBuf 0
            (keyedHash Config.platform r (slice D 0x14 0x30) ++ slice D 0x14 0x30
              ++ leBytes32 (factoryChecksum D) ++ slice D 0x34 0x60
              ++ leBytes32 (userChecksum D) ++ slice D 0x64 0x100)
end

