-- ==== Sys2Proof/Laws/Bytes.lean ====
section
/-! SUPPORT. Lengths and inverses of the byte-string operations. -/

namespace Sys2Proof

@[simp] theorem leBytes32_length (v : Word) : (leBytes32 v).length = 4 := rfl

@[simp] theorem beBytes32_length (v : Word) : (beBytes32 v).length = 4 := rfl

@[simp] theorem beBytes64_length (v : DWord) : (beBytes64 v).length = 8 := rfl

@[simp] theorem slice_length (B : List Byte) (a b : Nat) : (slice B a b).length = min (b - a) (B.length - a) := by
  simp [slice]

/-- `le32` maps `LE32(v)` back to `v` (00_scope.md R12). -/
@[simp] theorem leValue_leBytes32 (v : Word) : leValue (leBytes32 v) = v := by
  simp only [leValue, leBytes32]
  apply BitVec.eq_of_getLsbD_eq
  intro i hi
  simp only [BitVec.getLsbD_or, BitVec.getLsbD_setWidth, BitVec.getLsbD_extractLsb', BitVec.getLsbD_shiftLeft,
    hi, decide_true, Bool.true_and]
  interval_cases i <;> simp

/-- The value of up to four bytes fits in as many bytes, and the first byte is its low byte (20_memory.md R53). -/
theorem leValue_bounds (bs : List Byte) (h : bs.length ≤ 4) :
    (leValue bs).toNat < 256 ^ bs.length ∧
      ∀ b rest, bs = b :: rest → (leValue bs).toNat = b.toNat + 256 * (leValue rest).toNat := by
  induction bs with
  | nil => exact ⟨by decide, fun b rest h => by cases h⟩
  | cons b bs ih =>
    obtain ⟨hlt, -⟩ := ih (by simp at h; omega)
    have hb := b.isLt
    have hle : 256 ^ bs.length ≤ 256 ^ 3 := Nat.pow_le_pow_right (by decide) (by simp at h; omega)
    have key : (leValue (b :: bs)).toNat = b.toNat + 256 * (leValue bs).toNat := by
      rw [leValue, BitVec.toNat_or, BitVec.toNat_shiftLeft, Nat.or_comm, BitVec.toNat_setWidth,
        Nat.mod_eq_of_lt (a := b.toNat) (by omega), Nat.shiftLeft_eq, Nat.mod_eq_of_lt (by omega),
        ← Nat.shiftLeft_eq, ← Nat.shiftLeft_add_eq_or_of_lt hb, Nat.shiftLeft_eq]
      omega
    refine ⟨?_, fun c rest hc => by cases hc; exact key⟩
    rw [key, List.length_cons, Nat.pow_succ]
    omega

theorem leValue_cons_toNat (b : Byte) (bs : List Byte) (h : bs.length ≤ 3) :
    (leValue (b :: bs)).toNat = b.toNat + 256 * (leValue bs).toNat :=
  (leValue_bounds (b :: bs) (by simp; omega)).2 b bs rfl

/-- The spec's rotate is the rotation of a 32-bit word (00_scope.md R11). -/
theorem rotl32_eq_rotateLeft (x : Word) {n : Nat} (h : n < 32) : rotl32 x n = x.rotateLeft n := by
  rw [rotl32, BitVec.rotateLeft_def, Nat.mod_eq_of_lt h]

/-- Byte `j` of a big-endian word (00_scope.md R12). -/
theorem beBytes32_getElem? (v : Word) {j : Nat} (h : j < 4) :
    (beBytes32 v)[j]? = some ((v >>> (24 - 8 * j)).setWidth 8) := by
  have e : ∀ k, v.extractLsb' k 8 = (v >>> k).setWidth 8 := fun k => by
    apply BitVec.eq_of_getLsbD_eq
    intro i hi
    simp [hi]
  interval_cases j <;> simp [beBytes32, e]

/-- A slice of a slice-sized split: the part before, the part between and the part after make up the whole. -/
theorem take_append_slice (B : List Byte) {a b : Nat} (h : a ≤ b) : B.take a ++ slice B a b = B.take b := by
  rw [slice, ← List.take_add, Nat.add_sub_cancel' h]

theorem slice_getElem? (B : List Byte) (a b k : Nat) :
    (slice B a b)[k]? = if k < b - a then B[a + k]? else none := by
  simp [slice, List.getElem?_take]

end Sys2Proof
end

