-- ==== Sys2Proof/Laws/Crypto.lean ====
section
/-! SUPPORT. Lengths of what the units compute. -/

namespace Sys2Proof.Machine

@[simp] theorem digestBytes_length (H : Chain) : (digestBytes H).length = 20 := rfl

@[simp] theorem seededSha1_length (p : Nat) (seed : Vector Word 5) (m : List Byte) :
    (seededSha1 p seed m).length = 20 := rfl

@[simp] theorem keyedHash_len (cfg : Config) (r : Rev) (m : List Byte) : (keyedHash cfg r m).length = 20 := by rw [keyedHash]; rfl

@[simp] theorem prga_length (n : Nat) (S : List Byte) (i j : Byte) : (prga n S i j).length = n := by
  induction n generalizing S i j with
  | zero => rfl
  | succ n ih => simp [prga, ih]

@[simp] theorem keystream_length (key : List Byte) (n : Nat) : (keystream key n).length = n := by
  rw [keystream]; exact prga_length ..

@[simp] theorem rc4_length (key D : List Byte) : (rc4 key D).length = D.length := by simp [rc4]

@[simp] theorem sboxSwap_length (S : List Byte) (i j : Byte) : (sboxSwap S i j).length = S.length := by
  simp [sboxSwap]

/-- The array has an entry for every byte. -/
theorem getElem?_eq_sboxAt {S : List Byte} (h : S.length = 256) (x : Byte) : S[x.toNat]? = some (sboxAt S x) := by
  have hx : x.toNat < S.length := by have := x.isLt; omega
  rw [sboxAt, List.getD_eq_getElem _ _ hx, List.getElem?_eq_getElem hx]

/-- An entry after a swap, also of an entry with itself (42_stream_cipher.md R160, R161). -/
theorem sboxAt_sboxSwap {S : List Byte} (h : S.length = 256) (i j x : Byte) :
    sboxAt (sboxSwap S i j) x = if x = i then sboxAt S j else if x = j then sboxAt S i else sboxAt S x := by
  have hlt : ∀ y : Byte, y.toNat < S.length := fun y => by have := y.isLt; omega
  have hne : ∀ {y z : Byte}, y ≠ z → z.toNat ≠ y.toNat := fun hyz he => hyz (BitVec.eq_of_toNat_eq he.symm)
  simp only [sboxAt, sboxSwap, List.getD_eq_getElem?_getD, List.getElem?_set, List.length_set, hlt, if_true]
  by_cases hi : x = i
  · subst hi
    by_cases hj : x = j
    · subst hj; simp
    · simp [hne hj, hlt]
  · by_cases hj : x = j
    · subst hj; simp [hi]
    · simp [hi, hj, hne hi, hne hj]

theorem imageTag_length {img : List Byte} (h : img.length = 256) : (imageTag img).length = 20 := by
  simp [imageTag, h]

theorem imageBlock_length {img : List Byte} (h : img.length = 256) : (imageBlock img).length = 28 := by
  simp [imageBlock, h]

theorem candidatePlain_length {cfg : Config} {raw : List Byte} {r : Rev} (h : raw.length = 256) :
    (candidatePlain cfg raw r).length = 28 := by simp [candidatePlain, imageBlock_length h]

theorem decodedImage_length {cfg : Config} {raw : List Byte} {r : Rev} (h : raw.length = 256) :
    (decodedImage cfg raw r).length = 256 := by
  simp [decodedImage, imageTag_length h, candidatePlain_length h, h]

theorem encodedImage_length {cfg : Config} {r : Rev} {block factory userTail : List Byte} (hb : block.length = 28)
    (hf : factory.length = 44) (hu : userTail.length = 156) :
    (encodedImage cfg r block factory userTail).length = 256 := by
  simp [encodedImage, hb, hf, hu]

/-- A resolved image is the decoded image of an accepted candidate. -/
theorem resolve_eq_some {cfg : Config} {raw img : List Byte} {r : Rev} (h : resolve cfg raw = some (img, r)) :
    img = decodedImage cfg raw r ∧ accepts cfg raw r = true := by
  unfold resolve at h
  split at h
  · rename_i r' hr
    cases h
    exact ⟨rfl, List.find?_some hr⟩
  · cases h

end Sys2Proof.Machine
end

