-- ==== Sys2Proof/Laws/Memory.lean ====
section
/-! SUPPORT. The laws of the byte cells: read after write, and that every write keeps the canonical form. -/

namespace Sys2Proof.Machine

@[simp] theorem Memory.get?_nil (a : Nat) : Memory.get? [] a = none := rfl

theorem Memory.get?_cons (k : Nat) (b : Byte) (m : Memory) (a : Nat) :
    Memory.get? ((k, b) :: m) a = if k = a then some b else Memory.get? m a := rfl

/-- A cell below every listed one holds ⊥. -/
theorem Memory.get?_eq_none_of_lt {m : Memory} {a : Nat} (h : ∀ c ∈ m, a < c.1) : Memory.get? m a = none := by
  induction m with
  | nil => rfl
  | cons c m ih =>
    obtain ⟨k, b⟩ := c
    have hk : a < k := h (k, b) (by simp)
    rw [Memory.get?_cons, if_neg (by omega), ih fun c hc => h c (by simp [hc])]

/-- Read after write. -/
theorem Memory.get?_set (m : Memory) (a c : Nat) (b : Byte) :
    Memory.get? (Memory.set m a b) c = if c = a then some b else Memory.get? m c := by
  induction m with
  | nil => simp [Memory.set, Memory.get?_cons, eq_comm]
  | cons e m ih =>
    obtain ⟨k, d⟩ := e
    unfold Memory.set
    split
    · simp only [Memory.get?_cons]
      split <;> rename_i h1 h2 <;> simp [eq_comm, h2]
    · split
      · subst_vars
        simp only [Memory.get?_cons]
        split <;> rename_i h
        · simp [h]
        · rw [if_neg (Ne.symm h)]
      · simp only [Memory.get?_cons, ih]
        split
        · rw [if_neg (by omega)]
        · rfl

theorem Memory.mem_set {m : Memory} {a : Nat} {b : Byte} {c : Host.Cell} (h : c ∈ Memory.set m a b) :
    c = (a, b) ∨ c ∈ m := by
  induction m with
  | nil => simpa [Memory.set] using h
  | cons e m ih =>
    obtain ⟨k, d⟩ := e
    unfold Memory.set at h
    split at h
    · simpa using h
    · split at h
      · rcases List.mem_cons.1 h with h | h <;> simp [h]
      · rcases List.mem_cons.1 h with h | h
        · simp [h]
        · rcases ih h with h | h <;> simp [h]

/-- A write keeps the canonical form. -/
theorem Memory.set_wf {m : Memory} (hm : m.wf) (a : Nat) (b : Byte) : (Memory.set m a b).wf := by
  induction m with
  | nil => simp [Memory.set, Memory.wf]
  | cons e m ih =>
    obtain ⟨k, d⟩ := e
    obtain ⟨hk, hm'⟩ := List.pairwise_cons.1 hm
    unfold Memory.set
    split
    · refine List.pairwise_cons.2 ⟨fun c hc => ?_, hm⟩
      rcases List.mem_cons.1 hc with rfl | hc
      · assumption
      · exact Nat.lt_trans ‹_› (hk c hc)
    · split
      · exact List.pairwise_cons.2 ⟨fun c hc => by subst_vars; exact hk c hc, hm'⟩
      · refine List.pairwise_cons.2 ⟨fun c hc => ?_, ih hm'⟩
        rcases Memory.mem_set hc with rfl | hc
        · show k < a; omega
        · exact hk c hc

theorem Memory.setBytes_wf {m : Memory} (hm : m.wf) (a : Nat) (bs : List Byte) : (Memory.setBytes m a bs).wf := by
  induction bs generalizing m a with
  | nil => exact hm
  | cons b bs ih => exact ih (Memory.set_wf hm a b) (a + 1)

/-- Read after a write of several bytes: the byte written there, else what was there. -/
theorem Memory.get?_setBytes (m : Memory) (a c : Nat) (bs : List Byte) :
    Memory.get? (Memory.setBytes m a bs) c =
      if a ≤ c ∧ c < a + bs.length then bs[c - a]? else Memory.get? m c := by
  induction bs generalizing m a with
  | nil => rw [if_neg (by simp)]; rfl
  | cons b bs ih =>
    rw [Memory.setBytes, ih (Memory.set m a b) (a + 1), Memory.get?_set]
    by_cases hc : c = a
    · subst hc; simp
    · by_cases h : a + 1 ≤ c ∧ c < a + 1 + bs.length
      · have : c - a = (c - (a + 1)) + 1 := by omega
        rw [if_pos h, if_pos (by simp; omega), this, List.getElem?_cons_succ]
      · rw [if_neg h, if_neg hc, if_neg (by simp; omega)]

theorem Memory.mem_setBytes {m : Memory} {a : Nat} {bs : List Byte} {c : Host.Cell}
    (h : c ∈ Memory.setBytes m a bs) : (a ≤ c.1 ∧ c.1 < a + bs.length) ∨ c ∈ m := by
  induction bs generalizing m a with
  | nil => exact .inr h
  | cons b bs ih =>
    rcases ih h with h | h
    · left; simp; omega
    · rcases Memory.mem_set h with rfl | h
      · left; simp
      · exact .inr h

/-- A region read gives bytes exactly when every cell of it holds one. -/
theorem Memory.getBytes_eq_ok {m : Memory} {a n : Nat} {bs : List Byte} :
    Memory.getBytes m a n = .ok bs ↔ bs.length = n ∧ ∀ k < n, Memory.get? m (a + k) = bs[k]? := by
  induction n generalizing a bs with
  | zero =>
    simp only [Memory.getBytes, Except.ok.injEq, Nat.not_lt_zero, false_implies, implies_true, and_true]
    exact ⟨fun h => by simp [← h], fun h => (List.length_eq_zero_iff.1 h).symm⟩
  | succ n ih =>
    unfold Memory.getBytes
    constructor
    · intro h
      split at h
      · cases h
      · rename_i b hb
        split at h
        · cases h
        · rename_i bs' hbs
          obtain ⟨hl, hg⟩ := ih.1 hbs
          cases h
          refine ⟨by simp [hl], fun k hk => ?_⟩
          cases k with
          | zero => simpa using hb
          | succ k =>
            have := hg k (by omega)
            rw [List.getElem?_cons_succ, ← this, Nat.add_assoc, Nat.add_comm 1 k]
    · rintro ⟨hl, hg⟩
      cases bs with
      | nil => simp at hl
      | cons b bs =>
        have h0 := hg 0 (by omega)
        simp only [Nat.add_zero, List.getElem?_cons_zero] at h0
        have hrest : Memory.getBytes m (a + 1) n = .ok bs :=
          ih.2 ⟨by simpa using hl, fun k hk => by
            have := hg (k + 1) (by omega)
            rw [List.getElem?_cons_succ] at this
            rw [← this, Nat.add_assoc, Nat.add_comm 1 k]⟩
        simp only [h0, hrest]

/-- A region read fails at the first ⊥ cell. -/
theorem Memory.getBytes_eq_error {m : Memory} {a n e : Nat} :
    Memory.getBytes m a n = .error e ↔
      a ≤ e ∧ e < a + n ∧ Memory.get? m e = none ∧ ∀ j < e, a ≤ j → Memory.get? m j ≠ none := by
  induction n generalizing a with
  | zero => simp [Memory.getBytes]; omega
  | succ n ih =>
    unfold Memory.getBytes
    split
    · rename_i h
      constructor
      · intro he
        cases he
        exact ⟨Nat.le_refl _, by omega, h, fun j hj hj' => by omega⟩
      · rintro ⟨h1, h2, h3, h4⟩
        rcases Nat.eq_or_lt_of_le h1 with rfl | h1
        · rfl
        · exact absurd h (h4 a h1 (Nat.le_refl _))
    · rename_i b hb
      split
      · rename_i e' he'
        rw [Except.error.injEq]
        constructor
        · rintro rfl
          obtain ⟨h1, h2, h3, h4⟩ := ih.1 he'
          refine ⟨by omega, by omega, h3, fun j hj hj' => ?_⟩
          rcases Nat.eq_or_lt_of_le hj' with rfl | hj'
          · simp [hb]
          · exact h4 j hj hj'
        · rintro ⟨h1, h2, h3, h4⟩
          have hne : a ≠ e := by rintro rfl; simp [hb] at h3
          have := (ih (a := a + 1)).2 ⟨by omega, by omega, h3, fun j hj hj' => h4 j hj (by omega)⟩
          rw [he'] at this
          exact Except.error.inj this
      · rename_i bs hbs
        obtain ⟨hl, hg⟩ := Memory.getBytes_eq_ok.1 hbs
        constructor
        · intro h; cases h
        rintro ⟨h1, h2, h3, h4⟩
        exfalso
        have hne : a ≠ e := by rintro rfl; simp [hb] at h3
        have h5 := hg (e - (a + 1)) (by omega)
        rw [show a + 1 + (e - (a + 1)) = e by omega, h3] at h5
        have : e - (a + 1) < bs.length := by omega
        simp [List.getElem?_eq_getElem this] at h5

end Sys2Proof.Machine
end

