-- ==== Sys2Proof/Laws/State.lean ====
section
/-! SUPPORT. One lemma per field of State and update of it, true by unfolding, so that no proof unfolds an update. -/

namespace Sys2Proof.Machine

variable (s : State)

@[simp] theorem State.writeCells_mem (b : Buffer) (off : Nat) (bs : List Byte) : (s.writeCells b off bs).mem = Memory.setBytes s.mem (b.base + off) bs := rfl
@[simp] theorem State.writeCells_cksum (b : Buffer) (off : Nat) (bs : List Byte) : (s.writeCells b off bs).cksum = s.cksum := rfl
@[simp] theorem State.writeCells_status (b : Buffer) (off : Nat) (bs : List Byte) : (s.writeCells b off bs).status = s.status := rfl
@[simp] theorem State.writeCells_pending (b : Buffer) (off : Nat) (bs : List Byte) : (s.writeCells b off bs).pending = s.pending := rfl
@[simp] theorem State.writeCells_fault (b : Buffer) (off : Nat) (bs : List Byte) : (s.writeCells b off bs).fault = s.fault := rfl
@[simp] theorem State.writeCells_hostQueue (b : Buffer) (off : Nat) (bs : List Byte) : (s.writeCells b off bs).hostQueue = s.hostQueue := rfl
@[simp] theorem State.writeCells_hostReads (b : Buffer) (off : Nat) (bs : List Byte) : (s.writeCells b off bs).hostReads = s.hostReads := rfl
@[simp] theorem State.writeCells_delay (b : Buffer) (off : Nat) (bs : List Byte) : (s.writeCells b off bs).delay = s.delay := rfl
@[simp] theorem State.writeCells_draws (b : Buffer) (off : Nat) (bs : List Byte) : (s.writeCells b off bs).draws = s.draws := rfl

@[simp] theorem State.setCksum_mem (v : Word) : (s.setCksum v).mem = s.mem := rfl
@[simp] theorem State.setCksum_cksum (v : Word) : (s.setCksum v).cksum = some v := rfl
@[simp] theorem State.setCksum_status (v : Word) : (s.setCksum v).status = s.status := rfl
@[simp] theorem State.setCksum_pending (v : Word) : (s.setCksum v).pending = s.pending := rfl
@[simp] theorem State.setCksum_fault (v : Word) : (s.setCksum v).fault = s.fault := rfl
@[simp] theorem State.setCksum_hostQueue (v : Word) : (s.setCksum v).hostQueue = s.hostQueue := rfl
@[simp] theorem State.setCksum_hostReads (v : Word) : (s.setCksum v).hostReads = s.hostReads := rfl
@[simp] theorem State.setCksum_delay (v : Word) : (s.setCksum v).delay = s.delay := rfl
@[simp] theorem State.setCksum_draws (v : Word) : (s.setCksum v).draws = s.draws := rfl

@[simp] theorem State.setStatus_mem (v : Word) : (s.setStatus v).mem = s.mem := rfl
@[simp] theorem State.setStatus_cksum (v : Word) : (s.setStatus v).cksum = s.cksum := rfl
@[simp] theorem State.setStatus_status (v : Word) : (s.setStatus v).status = v := rfl
@[simp] theorem State.setStatus_pending (v : Word) : (s.setStatus v).pending = s.pending := rfl
@[simp] theorem State.setStatus_fault (v : Word) : (s.setStatus v).fault = s.fault := rfl
@[simp] theorem State.setStatus_hostQueue (v : Word) : (s.setStatus v).hostQueue = s.hostQueue := rfl
@[simp] theorem State.setStatus_hostReads (v : Word) : (s.setStatus v).hostReads = s.hostReads := rfl
@[simp] theorem State.setStatus_delay (v : Word) : (s.setStatus v).delay = s.delay := rfl
@[simp] theorem State.setStatus_draws (v : Word) : (s.setStatus v).draws = s.draws := rfl

@[simp] theorem State.raise_mem (f : Fault) : (s.raise f).mem = s.mem := rfl
@[simp] theorem State.raise_cksum (f : Fault) : (s.raise f).cksum = s.cksum := rfl
@[simp] theorem State.raise_status (f : Fault) : (s.raise f).status = s.status := rfl
@[simp] theorem State.raise_pending (f : Fault) : (s.raise f).pending = s.pending := rfl
@[simp] theorem State.raise_fault (f : Fault) : (s.raise f).fault = some f := rfl
@[simp] theorem State.raise_hostQueue (f : Fault) : (s.raise f).hostQueue = s.hostQueue := rfl
@[simp] theorem State.raise_hostReads (f : Fault) : (s.raise f).hostReads = s.hostReads := rfl
@[simp] theorem State.raise_delay (f : Fault) : (s.raise f).delay = s.delay := rfl
@[simp] theorem State.raise_draws (f : Fault) : (s.raise f).draws = s.draws := rfl

@[simp] theorem State.report_mem (e : Err) : (s.report e).mem = s.mem := rfl
@[simp] theorem State.report_cksum (e : Err) : (s.report e).cksum = s.cksum := rfl
@[simp] theorem State.report_status (e : Err) : (s.report e).status = doneStatus rrevNone e := rfl
@[simp] theorem State.report_pending (e : Err) : (s.report e).pending = s.pending := rfl
@[simp] theorem State.report_fault (e : Err) : (s.report e).fault = s.fault := rfl
@[simp] theorem State.report_hostQueue (e : Err) : (s.report e).hostQueue = s.hostQueue := rfl
@[simp] theorem State.report_hostReads (e : Err) : (s.report e).hostReads = s.hostReads := rfl
@[simp] theorem State.report_delay (e : Err) : (s.report e).delay = s.delay := rfl
@[simp] theorem State.report_draws (e : Err) : (s.report e).draws = s.draws := rfl

@[simp] theorem State.complete_mem (r : BitVec 4) : (s.complete r).mem = s.mem := rfl
@[simp] theorem State.complete_cksum (r : BitVec 4) : (s.complete r).cksum = s.cksum := rfl
@[simp] theorem State.complete_status (r : BitVec 4) : (s.complete r).status = doneStatus r .ok := rfl
@[simp] theorem State.complete_pending (r : BitVec 4) : (s.complete r).pending = s.pending := rfl
@[simp] theorem State.complete_fault (r : BitVec 4) : (s.complete r).fault = s.fault := rfl
@[simp] theorem State.complete_hostQueue (r : BitVec 4) : (s.complete r).hostQueue = s.hostQueue := rfl
@[simp] theorem State.complete_hostReads (r : BitVec 4) : (s.complete r).hostReads = s.hostReads := rfl
@[simp] theorem State.complete_delay (r : BitVec 4) : (s.complete r).delay = s.delay := rfl
@[simp] theorem State.complete_draws (r : BitVec 4) : (s.complete r).draws = s.draws := rfl

@[simp] theorem State.launch_mem (v : Word) : (s.launch v).mem = s.mem := rfl
@[simp] theorem State.launch_cksum (v : Word) : (s.launch v).cksum = s.cksum := rfl
@[simp] theorem State.launch_status (v : Word) : (s.launch v).status = launchStatus := rfl
@[simp] theorem State.launch_pending (v : Word) : (s.launch v).pending = some v := rfl
@[simp] theorem State.launch_fault (v : Word) : (s.launch v).fault = s.fault := rfl
@[simp] theorem State.launch_hostQueue (v : Word) : (s.launch v).hostQueue = s.hostQueue := rfl
@[simp] theorem State.launch_hostReads (v : Word) : (s.launch v).hostReads = s.hostReads := rfl
@[simp] theorem State.launch_delay (v : Word) : (s.launch v).delay = Config.latency s.draws := rfl
@[simp] theorem State.launch_draws (v : Word) : (s.launch v).draws = s.draws + 1 := rfl

@[simp] theorem State.setQueue_mem (q : List HostAction) : (s.setQueue q).mem = s.mem := rfl
@[simp] theorem State.setQueue_cksum (q : List HostAction) : (s.setQueue q).cksum = s.cksum := rfl
@[simp] theorem State.setQueue_status (q : List HostAction) : (s.setQueue q).status = s.status := rfl
@[simp] theorem State.setQueue_pending (q : List HostAction) : (s.setQueue q).pending = s.pending := rfl
@[simp] theorem State.setQueue_fault (q : List HostAction) : (s.setQueue q).fault = s.fault := rfl
@[simp] theorem State.setQueue_hostQueue (q : List HostAction) : (s.setQueue q).hostQueue = q := rfl
@[simp] theorem State.setQueue_hostReads (q : List HostAction) : (s.setQueue q).hostReads = s.hostReads := rfl
@[simp] theorem State.setQueue_delay (q : List HostAction) : (s.setQueue q).delay = s.delay := rfl
@[simp] theorem State.setQueue_draws (q : List HostAction) : (s.setQueue q).draws = s.draws := rfl

@[simp] theorem State.recordRead_mem (off n : Nat) (v : Word) : (s.recordRead off n v).mem = s.mem := rfl
@[simp] theorem State.recordRead_cksum (off n : Nat) (v : Word) : (s.recordRead off n v).cksum = s.cksum := rfl
@[simp] theorem State.recordRead_status (off n : Nat) (v : Word) : (s.recordRead off n v).status = s.status := rfl
@[simp] theorem State.recordRead_pending (off n : Nat) (v : Word) : (s.recordRead off n v).pending = s.pending := rfl
@[simp] theorem State.recordRead_fault (off n : Nat) (v : Word) : (s.recordRead off n v).fault = s.fault := rfl
@[simp] theorem State.recordRead_hostQueue (off n : Nat) (v : Word) : (s.recordRead off n v).hostQueue = s.hostQueue := rfl
@[simp] theorem State.recordRead_hostReads (off n : Nat) (v : Word) : (s.recordRead off n v).hostReads = ⟨off, n, v⟩ :: s.hostReads := rfl
@[simp] theorem State.recordRead_delay (off n : Nat) (v : Word) : (s.recordRead off n v).delay = s.delay - 1 := rfl
@[simp] theorem State.recordRead_draws (off n : Nat) (v : Word) : (s.recordRead off n v).draws = s.draws := rfl

@[simp] theorem State.assertReset_mem (q : List HostAction) : (s.assertReset q).mem = [] := rfl
@[simp] theorem State.assertReset_cksum (q : List HostAction) : (s.assertReset q).cksum = none := rfl
@[simp] theorem State.assertReset_status (q : List HostAction) : (s.assertReset q).status = 0x00000F00 := rfl
@[simp] theorem State.assertReset_pending (q : List HostAction) : (s.assertReset q).pending = none := rfl
@[simp] theorem State.assertReset_fault (q : List HostAction) : (s.assertReset q).fault = none := rfl
@[simp] theorem State.assertReset_hostQueue (q : List HostAction) : (s.assertReset q).hostQueue = q := rfl
@[simp] theorem State.assertReset_hostReads (q : List HostAction) : (s.assertReset q).hostReads = s.hostReads := rfl
@[simp] theorem State.assertReset_delay (q : List HostAction) : (s.assertReset q).delay = 0 := rfl
@[simp] theorem State.assertReset_draws (q : List HostAction) : (s.assertReset q).draws = s.draws := rfl

@[simp] theorem State.latch_mem (v : Word) : (s.latch v).mem = s.mem := rfl
@[simp] theorem State.latch_cksum (v : Word) : (s.latch v).cksum = s.cksum := rfl
@[simp] theorem State.latch_status (v : Word) : (s.latch v).status = launchStatus := rfl
@[simp] theorem State.latch_pending (v : Word) : (s.latch v).pending = some v := rfl
@[simp] theorem State.latch_fault (v : Word) : (s.latch v).fault = none := rfl
@[simp] theorem State.latch_hostQueue (v : Word) : (s.latch v).hostQueue = s.hostQueue := rfl
@[simp] theorem State.latch_hostReads (v : Word) : (s.latch v).hostReads = s.hostReads := rfl
@[simp] theorem State.latch_delay (v : Word) : (s.latch v).delay = 0 := rfl
@[simp] theorem State.latch_draws (v : Word) : (s.latch v).draws = s.draws := rfl

end Sys2Proof.Machine
end

