-- ==== Sys2Proof/Laws/Ops.lean ====
section
/-! SUPPORT. What each shared operation over the state can do, said once: reading a region, running the checks, ending a
command, and the STATUS words. -/

namespace Sys2Proof.Machine

theorem State.cell?_def (s : State) (b : Buffer) (k : Nat) : s.cell? b k = Memory.get? s.mem (b.base + k) := rfl

/-- A region that holds `B` reads as `B`. -/
theorem State.readCells_of_holds {s : State} {b : Buffer} {off n : Nat} {B : List Byte} (hn : B.length = n)
    (h : s.holds b off B) : s.readCells b off n = .ok B := by
  have : Memory.getBytes s.mem (b.base + off) n = .ok B :=
    Memory.getBytes_eq_ok.2 ⟨hn, fun k hk => by
      have := h k (by omega)
      rwa [State.cell?_def, ← Nat.add_assoc] at this⟩
  simp only [State.readCells, this]

/-- A region read that answers bytes has read what the region holds. -/
theorem State.readCells_eq_ok {s : State} {b : Buffer} {off n : Nat} {B : List Byte}
    (h : s.readCells b off n = .ok B) : B.length = n ∧ s.holds b off B := by
  unfold State.readCells at h
  split at h
  · rename_i bs hbs
    cases h
    obtain ⟨hl, hg⟩ := Memory.getBytes_eq_ok.1 hbs
    exact ⟨hl, fun k hk => by rw [State.cell?_def, ← Nat.add_assoc]; exact hg k (by omega)⟩
  · cases h

/-- A region read fails with the index of the region's first ⊥ cell. -/
theorem State.readCells_of_firstUndef {s : State} {b : Buffer} {off n k : Nat} (h : s.firstUndef b off n k) :
    s.readCells b off n = .error (.undefReadBlock b k) := by
  obtain ⟨h1, h2, h3, h4⟩ := h
  have : Memory.getBytes s.mem (b.base + off) n = .error (b.base + k) :=
    Memory.getBytes_eq_error.2 ⟨by omega, by omega, h3, fun j hj hj' => by
      have := h4 (j - b.base) (by omega) (by omega)
      rwa [State.cell?_def, show b.base + (j - b.base) = j by omega] at this⟩
  simp only [State.readCells, this, Nat.add_sub_cancel_left]

theorem State.withCells_of_holds {s : State} {b : Buffer} {off n : Nat} {B : List Byte} {k : List Byte → State}
    (hn : B.length = n) (h : s.holds b off B) : s.withCells b off n k = k B := by
  simp only [State.withCells, State.readCells_of_holds hn h]

theorem State.withCells_of_firstUndef {s : State} {b : Buffer} {off n i : Nat} {k : List Byte → State}
    (h : s.firstUndef b off n i) : s.withCells b off n k = s.raise (.undefReadBlock b i) := by
  simp only [State.withCells, State.readCells_of_firstUndef h]

/-- A command's read either raises UNDEF_READ or goes on with the bytes the region holds. -/
theorem State.withCells_cases (s : State) (b : Buffer) (off n : Nat) (k : List Byte → State) :
    (∃ i, s.withCells b off n k = s.raise (.undefReadBlock b i)) ∨
    (∃ B, B.length = n ∧ s.holds b off B ∧ s.withCells b off n k = k B) := by
  cases h : s.readCells b off n with
  | ok B =>
    obtain ⟨hl, hh⟩ := State.readCells_eq_ok h
    exact .inr ⟨B, hl, hh, by simp only [State.withCells, h]⟩
  | error f =>
    left
    unfold State.readCells at h
    split at h
    · cases h
    · rename_i a ha
      cases h
      exact ⟨a - b.base, by simp only [State.withCells, State.readCells, ha]⟩

/-- A region without a ⊥ cell holds some bytes. -/
theorem State.exists_holds {s : State} {b : Buffer} {off n : Nat}
    (h : ∀ k, off ≤ k → k < off + n → s.cell? b k ≠ none) : ∃ B, B.length = n ∧ s.holds b off B := by
  cases hr : s.readCells b off n with
  | ok B => exact ⟨B, State.readCells_eq_ok hr⟩
  | error f =>
    exfalso
    unfold State.readCells at hr
    split at hr
    · cases hr
    · rename_i a ha
      obtain ⟨h1, h2, h3, -⟩ := Memory.getBytes_eq_error.1 ha
      exact h (a - b.base) (by omega) (by omega) (by rwa [State.cell?_def, Nat.add_sub_cancel' (by omega)])

/-- One cell after a write of several: the byte written there, else what was there. -/
theorem State.cell?_writeCells (s : State) (b c : Buffer) (off k : Nat) (bs : List Byte) :
    (s.writeCells b off bs).cell? c k =
      if b.base + off ≤ c.base + k ∧ c.base + k < b.base + off + bs.length then bs[c.base + k - (b.base + off)]?
      else s.cell? c k := by
  simp only [State.cell?_def, State.writeCells_mem, Memory.get?_setBytes]

@[simp] theorem State.cell?_complete (s : State) (r : BitVec 4) (b : Buffer) (k : Nat) :
    (s.complete r).cell? b k = s.cell? b k := rfl

@[simp] theorem State.cell?_report (s : State) (e : Err) (b : Buffer) (k : Nat) :
    (s.report e).cell? b k = s.cell? b k := rfl

@[simp] theorem State.cell?_raise (s : State) (f : Fault) (b : Buffer) (k : Nat) :
    (s.raise f).cell? b k = s.cell? b k := rfl

@[simp] theorem State.cell?_setCksum (s : State) (v : Word) (b : Buffer) (k : Nat) :
    (s.setCksum v).cell? b k = s.cell? b k := rfl

/-- After a write a region inside it holds its part of what was written. -/
theorem State.holds_writeCells (s : State) (b : Buffer) (off : Nat) (pre mid post : List Byte) :
    (s.writeCells b off (pre ++ mid ++ post)).holds b (off + pre.length) mid := by
  intro k hk
  rw [State.cell?_writeCells, if_pos (by simp; omega), List.append_assoc,
    List.getElem?_append_right (by omega), List.getElem?_append_left (by omega)]
  congr 1
  omega

/-- After a write the region written holds what was written. -/
theorem State.holds_writeCells_self (s : State) (b : Buffer) (off : Nat) (bs : List Byte) :
    (s.writeCells b off bs).holds b off bs := by
  have := State.holds_writeCells s b off [] bs []
  simpa using this

/-- A write leaves what a region outside it holds. -/
theorem State.holds_writeCells_other {s : State} {b c : Buffer} {off off' : Nat} {bs B : List Byte}
    (hd : c.base + off' + B.length ≤ b.base + off ∨ b.base + off + bs.length ≤ c.base + off')
    (h : s.holds c off' B) : (s.writeCells b off bs).holds c off' B := by
  intro k hk
  rw [State.cell?_writeCells, if_neg (by omega)]
  exact h k hk

/-- What a region holds after a STATUS write is what it held before. -/
theorem State.holds_complete {s : State} {r : BitVec 4} {b : Buffer} {off : Nat} {B : List Byte} :
    (s.complete r).holds b off B ↔ s.holds b off B := Iff.rfl

/-- A region that holds bytes holds each part of them. -/
theorem State.holds_part {s : State} {b : Buffer} {off : Nat} {pre mid post : List Byte}
    (h : s.holds b off (pre ++ mid ++ post)) : s.holds b (off + pre.length) mid := by
  intro k hk
  have := h (pre.length + k) (by simp; omega)
  rw [← Nat.add_assoc, List.append_assoc, List.getElem?_append_right (by omega), Nat.add_sub_cancel_left,
    List.getElem?_append_left hk] at this
  exact this

/-- What a region holds is unique. -/
theorem State.holds_unique {s : State} {b : Buffer} {off : Nat} {B C : List Byte} (hl : B.length = C.length)
    (hB : s.holds b off B) (hC : s.holds b off C) : B = C := by
  apply List.ext_getElem?
  intro k
  by_cases hk : k < B.length
  · rw [← hB k hk, hC k (by omega)]
  · rw [List.getElem?_eq_none (by omega), List.getElem?_eq_none (by omega)]

/-- The checks of a command: the first that fails is reported, else the command goes on. -/
theorem State.checked_nil (s k : State) : s.checked [] k = k := rfl

theorem State.checked_none (s k : State) (cs : List (Option Err)) : s.checked (none :: cs) k = s.checked cs k := rfl

theorem State.checked_some (s k : State) (e : Err) (cs : List (Option Err)) :
    s.checked (some e :: cs) k = s.report e := rfl

/-- The 9-bit end of a region is its exact end (30_encoding.md R82). -/
theorem regionEnd_toNat (off len : BitVec 8) : (off.setWidth 9 + len.setWidth 9).toNat = off.toNat + len.toNat := by
  have h1 := off.isLt
  have h2 := len.isLt
  simp only [BitVec.toNat_add, BitVec.toNat_setWidth]
  omega

theorem checkRange_eq (off len : BitVec 8) :
    checkRange off len = if 256 < off.toNat + len.toNat then some .range else none := by
  rw [checkRange, regionEnd_toNat]

theorem checkRange_of_le {off len : BitVec 8} (h : off.toNat + len.toNat ≤ 256) : checkRange off len = none := by
  rw [checkRange_eq, if_neg (by omega)]

theorem checkRange_of_gt {off len : BitVec 8} (h : 256 < off.toNat + len.toNat) :
    checkRange off len = some .range := by rw [checkRange_eq, if_pos h]

theorem checkAlign_of_aligned {off len : BitVec 8} (h1 : off.toNat % 4 = 0) (h2 : len.toNat % 4 = 0) :
    checkAlign off len = none := by simp [checkAlign, h1, h2]

theorem checkAlign_of_misaligned {off len : BitVec 8} (h : off.toNat % 4 ≠ 0 ∨ len.toNat % 4 ≠ 0) :
    checkAlign off len = some .align := by rw [checkAlign, if_pos h]

@[simp] theorem revOfCode_revCode (r : Rev) : revOfCode (revCode r) = some r := by cases r <;> rfl

theorem revOfCode_eq_none {c : BitVec 4} : revOfCode c = none ↔ 4 ≤ c.toNat := by
  revert c; decide

theorem revOfCode_eq_some {c : BitVec 4} {r : Rev} : revOfCode c = some r ↔ c = revCode r := by
  revert c; cases r <;> decide

/-- The STATUS words of R57 and R228. -/
theorem launchStatus_eq : launchStatus = 0x80000F00 := by decide

theorem doneStatus_none_ok : doneStatus rrevNone .ok = 0x00000F00 := by decide

theorem doneStatus_err (e : Err) : doneStatus rrevNone e = 0x00000F00 ||| (e.code.setWidth 32) := by
  cases e <;> decide

@[simp] theorem statusBusy_doneStatus (r : BitVec 4) (e : Err) : statusBusy (doneStatus r e) = false := by
  revert r; cases e <;> decide

@[simp] theorem statusBusy_launchStatus : statusBusy launchStatus = true := by decide

theorem State.busy_def (s : State) : s.busy = statusBusy s.status := rfl

end Sys2Proof.Machine
end

