-- ==== Sys2Proof/Laws/Commands.lean ====
section
/-! SUPPORT. What each command can do, said once: it reports an error, raises UNDEF_READ, or ends with its own effect. -/

namespace Sys2Proof.Machine

/-- The three ends of a command: an error reported, UNDEF_READ raised, or one of the results `P` names. -/
def CommandEnd (s : State) (P : State → Prop) (t : State) : Prop :=
  (∃ e, e ≠ Err.ok ∧ t = s.report e) ∨ (∃ b i, t = s.raise (.undefReadBlock b i)) ∨ P t

theorem commandEnd_reported {s : State} {P : State → Prop} (e : Err) (he : e ≠ .ok) : CommandEnd s P (s.report e) :=
  .inl ⟨e, he, rfl⟩

theorem commandEnd_raised {s : State} {P : State → Prop} (b : Buffer) (i : Nat) :
    CommandEnd s P (s.raise (.undefReadBlock b i)) := .inr (.inl ⟨b, i, rfl⟩)

theorem commandEnd_done {s : State} {P : State → Prop} {t : State} (h : P t) : CommandEnd s P t := .inr (.inr h)

theorem execNop_eq (s : State) : exec .nop s = .next (s.complete rrevNone) := rfl

theorem execCksum_eq (src : Src) (off len : BitVec 8) (s : State) :
    exec (.cksum src off len) s = .next (cksumResult src off len s) := rfl

theorem execKhash_eq (rev : BitVec 4) (src : Src) (off len : BitVec 8) (s : State) :
    exec (.khash rev src off len) s = .next (khashResult Config.platform rev src off len s) := rfl

theorem execRc4x_eq (src : Src) (off len : BitVec 8) (s : State) :
    exec (.rc4x src off len) s = .next (rc4xResult src off len s) := rfl

theorem execDecode_eq (s : State) : exec .decode s = .next (decodeResult Config.platform s) := rfl

theorem execEncode_eq (rev : BitVec 4) (s : State) :
    exec (.encode rev) s = .next (encodeResult Config.platform rev s) := rfl

/-- CKSUM when every check passes (40_checksum.md R114). -/
theorem cksumResult_wellFormed {src : Src} {off len : BitVec 8} {s : State} (h1 : off.toNat % 4 = 0)
    (h2 : len.toNat % 4 = 0) (h3 : off.toNat + len.toNat ≤ 256) :
    cksumResult src off len s =
      s.withCells (srcBuffer src) off.toNat len.toNat fun B => (s.setCksum (checksum B)).complete rrevNone := by
  rw [cksumResult, checkAlign_of_aligned h1 h2, checkRange_of_le h3]; rfl

/-- KHASH when every check passes (41_key_schedule.md R142). -/
theorem khashResult_wellFormed {cfg : Config} {r : Rev} {src : Src} {off len : BitVec 8} {s : State}
    (h : off.toNat + len.toNat ≤ 256) :
    khashResult cfg (revCode r) src off len s =
      s.withCells (srcBuffer src) off.toNat len.toNat fun m =>
        (s.writeCells .digest 0 (keyedHash cfg r m)).complete rrevNone := by
  rw [khashResult, revOfCode_revCode, checkRange_of_le h]; rfl

/-- RC4X when every check passes (42_stream_cipher.md R165). -/
theorem rc4xResult_wellFormed {src : Src} {off len : BitVec 8} {s : State} (h : off.toNat + len.toNat ≤ 256) :
    rc4xResult src off len s =
      s.withCells .digest 0 20 fun key =>
        s.withCells (srcBuffer src) off.toNat len.toNat fun D =>
          (s.writeCells .outBuf off.toNat (rc4 key D)).complete rrevNone := by
  rw [rc4xResult, checkRange_of_le h]; rfl

/-- ENCODE under a supported revision (44_codec_facade.md R200). -/
theorem encodeResult_supported {cfg : Config} {r : Rev} {s : State} :
    encodeResult cfg (revCode r) s =
      s.withCells .inBuf 0x14 28 fun block =>
        s.withCells .inBuf 0x34 44 fun factory =>
          s.withCells .inBuf 0x64 156 fun userTail =>
            (s.writeCells .outBuf 0 (encodedImage cfg r block factory userTail)).complete rrevNone := by
  rw [encodeResult, revOfCode_revCode]

/-- Everything CKSUM can do. -/
theorem cksumResult_cases (src : Src) (off len : BitVec 8) (s : State) :
    CommandEnd s (fun t => ∃ B, off.toNat + len.toNat ≤ 256 ∧ B.length = len.toNat ∧
        s.holds (srcBuffer src) off.toNat B ∧ t = (s.setCksum (checksum B)).complete rrevNone)
      (cksumResult src off len s) := by
  by_cases ha : off.toNat % 4 ≠ 0 ∨ len.toNat % 4 ≠ 0
  · rw [cksumResult, checkAlign_of_misaligned ha]
    exact commandEnd_reported .align (by decide)
  · by_cases hr : 256 < off.toNat + len.toNat
    · rw [cksumResult, checkAlign_of_aligned (by omega) (by omega), checkRange_of_gt hr]
      exact commandEnd_reported .range (by decide)
    · rw [cksumResult_wellFormed (by omega) (by omega) (by omega)]
      rcases State.withCells_cases s (srcBuffer src) off.toNat len.toNat _ with ⟨i, h⟩ | ⟨B, hl, hh, h⟩
      · rw [h]; exact commandEnd_raised _ i
      · rw [h]; exact commandEnd_done ⟨B, by omega, hl, hh, rfl⟩

/-- Everything KHASH can do. -/
theorem khashResult_cases (cfg : Config) (rev : BitVec 4) (src : Src) (off len : BitVec 8) (s : State) :
    CommandEnd s (fun t => ∃ r m, rev = revCode r ∧ off.toNat + len.toNat ≤ 256 ∧ m.length = len.toNat ∧
        s.holds (srcBuffer src) off.toNat m ∧ t = (s.writeCells .digest 0 (keyedHash cfg r m)).complete rrevNone)
      (khashResult cfg rev src off len s) := by
  cases hv : revOfCode rev with
  | none => rw [khashResult, hv]; exact commandEnd_reported .unsupportedRevision (by decide)
  | some r =>
    obtain rfl := revOfCode_eq_some.1 hv
    by_cases hr : 256 < off.toNat + len.toNat
    · rw [khashResult, hv, checkRange_of_gt hr]; exact commandEnd_reported .range (by decide)
    · rw [khashResult_wellFormed (by omega)]
      rcases State.withCells_cases s (srcBuffer src) off.toNat len.toNat _ with ⟨i, h⟩ | ⟨m, hl, hh, h⟩
      · rw [h]; exact commandEnd_raised _ i
      · rw [h]; exact commandEnd_done ⟨r, m, rfl, by omega, hl, hh, rfl⟩

/-- Everything RC4X can do. -/
theorem rc4xResult_cases (src : Src) (off len : BitVec 8) (s : State) :
    CommandEnd s (fun t => ∃ key D, off.toNat + len.toNat ≤ 256 ∧ key.length = 20 ∧ s.holds .digest 0 key ∧
        D.length = len.toNat ∧ s.holds (srcBuffer src) off.toNat D ∧
        t = (s.writeCells .outBuf off.toNat (rc4 key D)).complete rrevNone)
      (rc4xResult src off len s) := by
  by_cases hr : 256 < off.toNat + len.toNat
  · rw [rc4xResult, checkRange_of_gt hr]; exact commandEnd_reported .range (by decide)
  · rw [rc4xResult_wellFormed (by omega)]
    rcases State.withCells_cases s .digest 0 20 _ with ⟨i, h⟩ | ⟨key, hkl, hkh, h⟩
    · rw [h]; exact commandEnd_raised _ i
    · rw [h]
      rcases State.withCells_cases s (srcBuffer src) off.toNat len.toNat _ with ⟨i, h⟩ | ⟨D, hl, hh, h⟩
      · rw [h]; exact commandEnd_raised _ i
      · rw [h]; exact commandEnd_done ⟨key, D, by omega, hkl, hkh, hl, hh, rfl⟩

/-- Everything DECODE can do. -/
theorem decodeResult_cases (cfg : Config) (s : State) :
    CommandEnd s (fun t => ∃ raw r, raw.length = 256 ∧ s.holds .inBuf 0 raw ∧
        resolve cfg raw = some (decodedImage cfg raw r, r) ∧
        t = (s.writeCells .outBuf 0 (decodedImage cfg raw r)).complete (revCode r))
      (decodeResult cfg s) := by
  rw [decodeResult]
  rcases State.withCells_cases s .inBuf 0 256 _ with ⟨i, h⟩ | ⟨raw, hl, hh, h⟩
  · rw [h]; exact commandEnd_raised _ i
  · rw [h]
    cases hv : resolve cfg raw with
    | none => exact commandEnd_reported .decodeFailure (by decide)
    | some p =>
      obtain ⟨img, r⟩ := p
      obtain ⟨rfl, -⟩ := resolve_eq_some hv
      exact commandEnd_done ⟨raw, r, hl, hh, hv, rfl⟩

/-- Everything ENCODE can do. -/
theorem encodeResult_cases (cfg : Config) (rev : BitVec 4) (s : State) :
    CommandEnd s (fun t => ∃ r block factory userTail, rev = revCode r ∧ block.length = 28 ∧ factory.length = 44 ∧
        userTail.length = 156 ∧ s.holds .inBuf 0x14 block ∧ s.holds .inBuf 0x34 factory ∧
        s.holds .inBuf 0x64 userTail ∧
        t = (s.writeCells .outBuf 0 (encodedImage cfg r block factory userTail)).complete rrevNone)
      (encodeResult cfg rev s) := by
  cases hv : revOfCode rev with
  | none => rw [encodeResult, hv]; exact commandEnd_reported .unsupportedRevision (by decide)
  | some r =>
    obtain rfl := revOfCode_eq_some.1 hv
    rw [encodeResult_supported]
    rcases State.withCells_cases s .inBuf 0x14 28 _ with ⟨i, h⟩ | ⟨block, hbl, hbh, h⟩
    · rw [h]; exact commandEnd_raised _ i
    rw [h]
    rcases State.withCells_cases s .inBuf 0x34 44 _ with ⟨i, h⟩ | ⟨factory, hfl, hfh, h⟩
    · rw [h]; exact commandEnd_raised _ i
    rw [h]
    rcases State.withCells_cases s .inBuf 0x64 156 _ with ⟨i, h⟩ | ⟨userTail, hul, huh, h⟩
    · rw [h]; exact commandEnd_raised _ i
    rw [h]
    exact commandEnd_done ⟨r, block, factory, userTail, rfl, hbl, hfl, hul, hbh, hfh, huh, rfl⟩

end Sys2Proof.Machine
end

