-- ==== Sys2Proof/Laws/Window.lean ====
section
/-! SUPPORT. The host window: which accesses the gate lets through, and what a read and a write answer. -/

namespace Sys2Proof.Machine

/-- While no command is pending the gate is the admission rule alone (20_memory.md R52, R55). -/
theorem accessFault_idle {cfg : Config} {s : State} {kind : AccessKind} {off n : Nat} (hb : s.busy = false) :
    accessFault cfg s kind off n = if admitted kind off n then none else some (.badAccess off n kind) := by
  cases h : admitted kind off n <;> simp [accessFault, hb, h]

/-- While a command is pending the gate lets through the 4-byte STATUS read alone (20_memory.md R56). -/
theorem accessFault_busy {cfg : Config} {s : State} {kind : AccessKind} {off n : Nat} (hb : s.busy = true)
    (h : ¬ (kind = .read ∧ off = offStatus ∧ n = 4)) :
    ∃ f, accessFault cfg s kind off n = some f ∧
      (f = .hazard off ∨ (admitted kind off n = false ∧ f = .badAccess off n kind)) := by
  have hx : (kind == .read && off == offStatus && n == 4) = false := by
    rw [Bool.eq_false_iff]
    intro hc
    simp only [Bool.and_eq_true, beq_iff_eq] at hc
    exact h ⟨hc.1.1, hc.1.2, hc.2⟩
  cases ha : admitted kind off n <;> cases hz : cfg.hazardFirst (kind == .read) off n <;> simp [accessFault, hb, hx, ha, hz]

theorem admitted_status : admitted .read offStatus 4 = true := by decide

/-- The 4-byte STATUS read passes the gate at any time (20_memory.md R56). -/
theorem accessFault_status (cfg : Config) (s : State) : accessFault cfg s .read offStatus 4 = none := by
  simp [accessFault, admitted_status]

/-- An access the gate lets through is admitted by the window map. -/
theorem admitted_of_accessFault {cfg : Config} {s : State} {kind : AccessKind} {off n : Nat}
    (h : accessFault cfg s kind off n = none) : admitted kind off n = true := by
  cases ha : admitted kind off n
  · simp only [accessFault, ha, Bool.not_false, Bool.and_true, if_true] at h
    split at h
    · cases h
    · cases h
  · rfl

/-- A write the gate lets through meets an idle machine. -/
theorem idle_of_write {cfg : Config} {s : State} {off n : Nat} (h : accessFault cfg s .write off n = none) :
    s.busy = false := by
  cases hb : s.busy
  · rfl
  · obtain ⟨f, hf, -⟩ := accessFault_busy (cfg := cfg) (off := off) (n := n) hb (kind := .write) (by simp)
    rw [h] at hf
    cases hf

@[simp] theorem memRead_status (cfg : Config) (s : State) : memRead cfg s offStatus 4 = .ok s.status := by
  simp only [memRead, accessFault_status]
  rfl

/-- An admitted write lies inside one buffer or is the CMD write (20_memory.md R51). -/
theorem admitted_write_cases {off n : Nat} (h : admitted .write off n = true) :
    (off + n ≤ 0x214) ∨ (off = offCmd ∧ n = 4) := by
  simp [admitted, windowMap, WindowRow.admits, offCksum, offStatus, offCmd] at h
  simp only [offCmd]
  omega

/-- A host write answers a fault, stores its bytes in the buffers, or launches. -/
theorem memWrite_cases (cfg : Config) (s : State) (off : Nat) (bytes : List Byte) :
    (∃ f, accessFault cfg s .write off bytes.length = some f ∧ memWrite cfg s off bytes = .error f) ∨
    (s.busy = false ∧ off + bytes.length ≤ 0x214 ∧
      memWrite cfg s off bytes = .ok { s with mem := Memory.setBytes s.mem off bytes }) ∨
    (s.busy = false ∧ off = offCmd ∧ bytes.length = 4 ∧ memWrite cfg s off bytes = .ok (s.launch (leValue bytes))) := by
  unfold memWrite
  split
  · rename_i f hf
    exact .inl ⟨f, hf, rfl⟩
  · rename_i hf
    right
    have hidle := idle_of_write hf
    rcases admitted_write_cases (admitted_of_accessFault hf) with h | ⟨h, hl⟩
    · have hw : bytes.length = 1 ∨ bytes.length = 2 ∨ bytes.length = 4 := by
        have := admitted_of_accessFault hf
        simp only [admitted, Bool.and_eq_true] at this
        simpa using this.1.1
      left
      rw [if_pos (by simp [inBuffers]; omega)]
      exact ⟨hidle, h, rfl⟩
    · right
      subst h
      rw [if_neg (by decide)]
      exact ⟨hidle, rfl, hl, rfl⟩

end Sys2Proof.Machine
end

