-- ==== Sys2Proof/Laws/Agents.lean ====
section
/-! SUPPORT. What a step can be, said once: a stop, reset after a fault, an idle step, a block step or a host step. -/

namespace Sys2Proof.Machine

/-- What a next state of a step can be. -/
inductive StepKind (s : State) : State → Prop where
  /-- Reset ends a fault. -/
  | resetAfterFault (f : Fault) (q : List HostAction) (hf : s.fault = some f) (hq : afterReset s.hostQueue = some q) :
      StepKind s (s.assertReset q)
  /-- Nothing is pending and the host has nothing to do. -/
  | idle (h : s.isFinal) : StepKind s s
  /-- The block ran the latched word, which is no command. -/
  | illegal (h : s.blockDue) (v : Word) (e : DecodeError) (hv : s.pending = some v) (he : decodeWord v = .error e) :
      StepKind s (s.report .illegalCommand)
  /-- The block ran the latched command. -/
  | command (t : State) (h : s.blockDue) (v : Word) (i : Instr) (hv : s.pending = some v) (hi : decodeWord v = .ok i)
      (ht : exec i s = .next t) : StepKind s t
  /-- The host acted. -/
  | host (a : HostAction) (rest : List HostAction) (h : s.hostDue a rest) :
      StepKind s (hostStep Config.platform a rest s)

/-- Each next state of a step is one of these. -/
theorem step_cases {s t : State} (h : step s = .next t) : StepKind s t := by
  have block : ∀ hd : s.blockDue, blockStep s = .next t → StepKind s t := by
    intro hd hb
    unfold blockStep at hb
    split at hb
    · cases hb
    · rename_i v hv
      split at hb
      · rename_i e he
        cases hb
        exact .illegal hd v e hv he
      · rename_i i hi
        exact .command t hd v i hv hi hb
  unfold step agentsStep at h
  split at h
  · rename_i f hf
    split at h
    · rename_i q hq
      cases h
      exact .resetAfterFault f q hf hq
    · cases h
  · rename_i hf
    split at h
    · rename_i hq
      split at h
      · rename_i hb
        exact block ⟨hf, hb, .inl hq⟩ h
      · rename_i hb
        cases h
        exact .idle ⟨hq, by simpa using hb, hf⟩
    · rename_i a rest hq
      split at h
      · rename_i hb
        simp only [Bool.and_eq_true, beq_iff_eq] at hb
        exact block ⟨hf, hb.1, .inr hb.2⟩ h
      · rename_i hb
        cases h
        refine .host a rest ⟨hf, hq, ?_⟩
        cases hs : s.busy
        · exact .inl rfl
        · right; simpa [hs] using hb

/-- The block's step, when it is due. -/
theorem step_of_blockDue {s : State} (h : s.blockDue) : step s = blockStep s := by
  obtain ⟨hf, hb, hq⟩ := h
  unfold step agentsStep
  rw [hf]
  cases hs : s.hostQueue with
  | nil => simp [hb]
  | cons a rest =>
    rcases hq with hq | hq
    · simp [hs] at hq
    · simp [hb, hq]

/-- The host's step, when it is due. -/
theorem step_of_hostDue {s : State} {a : HostAction} {rest : List HostAction} (h : s.hostDue a rest) :
    step s = .next (hostStep Config.platform a rest s) := by
  obtain ⟨hf, hq, hb⟩ := h
  unfold step agentsStep
  rw [hf, hq]
  simp only
  rw [if_neg]
  rcases hb with hb | hb <;> simp [hb]

theorem blockStep_of_decode {s : State} {v : Word} {i : Instr} (hv : s.pending = some v)
    (hi : decodeWord v = .ok i) : blockStep s = exec i s := by simp only [blockStep, hv, hi]

theorem blockStep_of_illegal {s : State} {v : Word} {e : DecodeError} (hv : s.pending = some v)
    (he : decodeWord v = .error e) : blockStep s = .next (s.report .illegalCommand) := by
  simp only [blockStep, hv, he]

theorem afterReset_eq_none {q : List HostAction} : afterReset q = none ↔ HostAction.reset ∉ q := by
  induction q with
  | nil => simp [afterReset]
  | cons a q ih => cases a <;> simp [afterReset, ih]

theorem reset_mem_of_afterReset {q q' : List HostAction} (h : afterReset q = some q') : HostAction.reset ∈ q := by
  by_contra hn
  rw [afterReset_eq_none.2 hn] at h
  cases h

end Sys2Proof.Machine
end

