-- ==== Sys2Proof/Laws/Encoding.lean ====
section
/-! SUPPORT. The fields of a packed command word (30_encoding.md R81). -/

namespace Sys2Proof

/-- A packed word as the sum of its shifted fields (30_encoding.md R88). -/
theorem packFields_toNat (len off : BitVec 8) (src : BitVec 1) (rev : BitVec 4) (op : BitVec 8) :
    (packFields len off src rev op).toNat =
      len.toNat * 2 ^ 24 + off.toNat * 2 ^ 16 + src.toNat * 2 ^ 12 + rev.toNat * 2 ^ 8 + op.toNat := by
  have h1 := off.isLt
  have h2 := src.isLt
  have h3 := rev.isLt
  have h4 := op.isLt
  unfold packFields
  simp only [BitVec.toNat_append]
  rw [← Nat.shiftLeft_add_eq_or_of_lt h4, ← Nat.shiftLeft_add_eq_or_of_lt h3, ← Nat.shiftLeft_add_eq_or_of_lt h2,
    ← Nat.shiftLeft_add_eq_or_of_lt (BitVec.isLt _), ← Nat.shiftLeft_add_eq_or_of_lt h1]
  have h5 : (0 : BitVec 3).toNat = 0 := rfl
  simp only [Nat.shiftLeft_eq, h5]
  omega

/-- Bit `i` of a packed word is a bit of the field it lies in. -/
theorem getLsbD_packFields (len off : BitVec 8) (src : BitVec 1) (rev : BitVec 4) (op : BitVec 8) (i : Nat) :
    (packFields len off src rev op).getLsbD i =
      if i < 8 then op.getLsbD i
      else if i < 12 then rev.getLsbD (i - 8)
      else if i < 13 then src.getLsbD (i - 12)
      else if i < 16 then false
      else if i < 24 then off.getLsbD (i - 16)
      else len.getLsbD (i - 24) := by
  have h1 : (i - 8 < 4) ↔ (i < 12) := by omega
  have h2 : (i - 12 < 1) ↔ (i < 13) := by omega
  have h3 : (i - 13 < 3) ↔ (i < 16) := by omega
  have h4 : (i - 16 < 8) ↔ (i < 24) := by omega
  rw [packFields]
  repeat rw [BitVec.getLsbD_append]
  simp only [Nat.sub_sub, Nat.reduceAdd]
  split_ifs <;> first | rfl | (exfalso; omega) | simp

/-- A field of a packed word, as a number. -/
theorem field_packFields (len off : BitVec 8) (src : BitVec 1) (rev : BitVec 4) (op : BitVec 8) (start w : Nat) :
    ((packFields len off src rev op).extractLsb' start w).toNat =
      (len.toNat * 2 ^ 24 + off.toNat * 2 ^ 16 + src.toNat * 2 ^ 12 + rev.toNat * 2 ^ 8 + op.toNat)
        / 2 ^ start % 2 ^ w := by
  rw [BitVec.extractLsb'_toNat, packFields_toNat, Nat.shiftRight_eq_div_pow]

section
variable (len off : BitVec 8) (src : BitVec 1) (rev : BitVec 4) (op : BitVec 8)

@[simp] theorem fieldOp_packFields : fieldOp (packFields len off src rev op) = op :=
  BitVec.eq_of_toNat_eq (by rw [fieldOp, field_packFields]; omega)

@[simp] theorem fieldRev_packFields : fieldRev (packFields len off src rev op) = rev :=
  BitVec.eq_of_toNat_eq (by rw [fieldRev, field_packFields]; omega)

@[simp] theorem fieldSrc_packFields : fieldSrc (packFields len off src rev op) = src :=
  BitVec.eq_of_toNat_eq (by rw [fieldSrc, field_packFields]; omega)

@[simp] theorem fieldRsv_packFields : fieldRsv (packFields len off src rev op) = 0 :=
  BitVec.eq_of_toNat_eq (by rw [fieldRsv, field_packFields]; simp; omega)

@[simp] theorem fieldOff_packFields : fieldOff (packFields len off src rev op) = off :=
  BitVec.eq_of_toNat_eq (by rw [fieldOff, field_packFields]; omega)

@[simp] theorem fieldLen_packFields : fieldLen (packFields len off src rev op) = len :=
  BitVec.eq_of_toNat_eq (by rw [fieldLen, field_packFields]; omega)

end

@[simp] theorem srcOfBit_bitOfSrc (src : Src) : srcOfBit (bitOfSrc src) = src := by cases src <;> rfl

@[simp] theorem bitOfSrc_srcOfBit (b : BitVec 1) : bitOfSrc (srcOfBit b) = b := by revert b; decide

/-- A word whose reserved bits are 0 is packed from its fields. -/
theorem packFields_fields {v : Word} (h : fieldRsv v = 0) :
    packFields (fieldLen v) (fieldOff v) (fieldSrc v) (fieldRev v) (fieldOp v) = v := by
  apply BitVec.eq_of_toNat_eq
  have hr : (fieldRsv v).toNat = 0 := by rw [h]; rfl
  have hv := v.isLt
  rw [packFields_toNat]
  simp only [fieldRsv, fieldLen, fieldOff, fieldSrc, fieldRev, fieldOp, BitVec.extractLsb'_toNat,
    Nat.shiftRight_eq_div_pow] at hr ⊢
  omega

end Sys2Proof
end

