-- ==== Sys2Proof/Laws/PerInstr.lean ====
section
/-! SUPPORT. Facts that hold of every instruction, one lemma per constructor. -/

namespace Sys2Proof.Laws.TableRow

/-- The match and mask of an instruction's row in spec/opcode_table.json. -/
def row : Instr → Word × Word
  | .nop => (0x00000000, 0xFFFFFFFF)
  | .cksum _ _ _ => (0x00000001, 0x0000EFFF)
  | .khash _ _ _ _ => (0x00000002, 0x0000E0FF)
  | .rc4x _ _ _ => (0x00000003, 0x0000EFFF)
  | .decode => (0x00000004, 0xFFFFFFFF)
  | .encode _ => (0x00000005, 0xFFFFF0FF)

/-- The word an instruction encodes to has its row's fixed bits. -/
def Statement (i : Instr) : Prop := encodeWord i &&& (row i).2 = (row i).1

theorem nop : Statement .nop := by unfold Statement; decide

theorem cksum (src : Src) (off len : BitVec 8) : Statement (.cksum src off len) := by
  cases src <;> refine BitVec.eq_of_getLsbD_eq fun i hi => ?_ <;>
    simp only [encodeWord, bitOfSrc, row, BitVec.getLsbD_and, getLsbD_packFields] <;> interval_cases i <;> simp

theorem khash (rev : BitVec 4) (src : Src) (off len : BitVec 8) : Statement (.khash rev src off len) := by
  cases src <;> refine BitVec.eq_of_getLsbD_eq fun i hi => ?_ <;>
    simp only [encodeWord, bitOfSrc, row, BitVec.getLsbD_and, getLsbD_packFields] <;> interval_cases i <;> simp

theorem rc4x (src : Src) (off len : BitVec 8) : Statement (.rc4x src off len) := by
  cases src <;> refine BitVec.eq_of_getLsbD_eq fun i hi => ?_ <;>
    simp only [encodeWord, bitOfSrc, row, BitVec.getLsbD_and, getLsbD_packFields] <;> interval_cases i <;> simp

theorem decode : Statement .decode := by unfold Statement; decide

theorem encode (rev : BitVec 4) : Statement (.encode rev) := by
  revert rev; unfold Statement; decide

end Sys2Proof.Laws.TableRow
end

