-- ==== Sys2Proof/Laws/Run.lean ====
section
/-! SUPPORT. Runs of several steps: they compose, and the steps a poll makes. -/

namespace Sys2Proof.Machine

theorem run_zero (s : State) : Host.Core.run Sys2Proof.core 0 s = .next s := rfl

/-- One step is a run of length 1. -/
theorem run_one {s t : State} (h : step s = .next t) : Host.Core.run Sys2Proof.core 1 s = .next t := by
  have : Sys2Proof.core.step s = .next t := h
  simp [Host.Core.run, this]

/-- A run of `a + b` steps is a run of `a` steps and then one of `b`. -/
theorem run_add {a b : Nat} {s t : State} (h : Host.Core.run Sys2Proof.core a s = .next t) :
    Host.Core.run Sys2Proof.core (a + b) s = Host.Core.run Sys2Proof.core b t := by
  induction a generalizing s with
  | zero => cases h; simp
  | succ a ih =>
    rw [Nat.succ_add]
    simp only [Host.Core.run] at h ⊢
    split at h
    · exact ih h
    · cases h
    · cases h

/-- A poll of a busy machine reads STATUS and stays at the head of the queue. -/
theorem step_poll_busy {s : State} {rest : List HostAction} (h : s.hostDue .poll rest) (hb : s.busy = true) :
    step s = .next (s.recordRead 0x224 4 s.status) := by
  rw [step_of_hostDue h]
  rw [State.busy_def] at hb
  simp only [hostStep, memRead_status, hb, if_true]
  rfl

/-- A poll of an idle machine reads STATUS and is done. -/
theorem step_poll_idle {s : State} {rest : List HostAction} (h : s.hostDue .poll rest) (hb : s.busy = false) :
    step s = .next ((s.recordRead 0x224 4 s.status).setQueue rest) := by
  rw [step_of_hostDue h]
  rw [State.busy_def] at hb
  simp only [hostStep, memRead_status, hb]
  rfl

end Sys2Proof.Machine
end

