-- ==== Sys2Proof/Tests/Slice0.lean ====
section
/-! SUPPORT. The model's own tests. Every expected value is from spec/ (the rule or the vector of 95_test_vectors.md is
named), and the witnesses show that each statement's hypotheses can be met. -/

namespace Sys2Proof.Tests

open Sys2Proof Sys2Proof.Machine

/-! ## Fixtures -/

/-- An idle machine with the given cells and host actions. -/
def idle (m : Memory) (q : List HostAction) : State := { State.reset with mem := m, hostQueue := q }

/-- A machine with a latched command word and `d` host turns before its block step. -/
def pendingWord (v : Word) (q : List HostAction) (d : Nat) : State :=
  { State.reset with pending := some v, status := 0x80000F00, hostQueue := q, delay := d }

/-- A machine in whose buffer `b` the cells from `off` on hold `B`. -/
def loaded (b : Buffer) (off : Nat) (B : List Byte) : State := State.reset.writeCells b off B

/-- The cells of a loaded buffer. -/
theorem loaded_cell (b : Buffer) (off : Nat) (B : List Byte) (k : Nat) :
    (loaded b off B).cell? b k = if off ≤ k ∧ k < off + B.length then B[k - off]? else none := by
  rw [loaded, State.cell?_writeCells]
  simp only [Nat.add_assoc, Nat.add_le_add_iff_left, Nat.add_lt_add_iff_left, Nat.add_sub_add_left]
  rfl

theorem loaded_holds (b : Buffer) (off : Nat) (B : List Byte) : (loaded b off B).holds b off B :=
  State.holds_writeCells_self _ _ _ _

/-- The first ⊥ cell of a loaded buffer is the one after what was loaded. -/
theorem loaded_firstUndef (b : Buffer) (B : List Byte) (n : Nat) (h : B.length < n) :
    (loaded b 0 B).firstUndef b 0 n B.length := by
  refine ⟨Nat.zero_le _, by omega, by simp [loaded_cell], fun j hj _ => ?_⟩
  rw [loaded_cell, if_pos (by omega), List.getElem?_eq_getElem (by omega)]
  exact Option.some_ne_none _

/-- TESTSEED with PREFIX_LEN 0: Table T1 of 95_test_vectors.md. -/
def testCfg : Config where
  seedA
    | .debug => #v[0xC7452301, 0x4FCDAB88, 0x38BADCFC, 0xB0325475, 0x63D2E1F4]
    | .retail1 => #v[0xC7452201, 0x4FCDAA88, 0x38BADDFC, 0xB0325575, 0x63D2E0F4]
    | .retail2 => #v[0xC7452101, 0x4FCDA988, 0x38BADEFC, 0xB0325675, 0x63D2E3F4]
    | .retail3 => #v[0xC7452001, 0x4FCDA888, 0x38BADFFC, 0xB0325775, 0x63D2E2F4]
  seedB
    | .debug => #v[0xD7452301, 0x5FCDAB88, 0x28BADCFC, 0xA0325475, 0x73D2E1F4]
    | .retail1 => #v[0xD7452201, 0x5FCDAA88, 0x28BADDFC, 0xA0325575, 0x73D2E0F4]
    | .retail2 => #v[0xD7452101, 0x5FCDA988, 0x28BADEFC, 0xA0325675, 0x73D2E3F4]
    | .retail3 => #v[0xD7452001, 0x5FCDA888, 0x28BADFFC, 0xA0325775, 0x73D2E2F4]
  prefixIs64 := false
  base := 0
  hazardFirst := fun _ _ _ => true

/-- Table T2, SAMPLE. -/
def sample : List Byte :=
  [0x00, 0x00, 0x00, 0x00, 0x00, 0x00, 0x00, 0x00, 0x00, 0x00, 0x00, 0x00, 0x00, 0x00, 0x00, 0x00]
  ++ [0x00, 0x00, 0x00, 0x00, 0x01, 0x02, 0x03, 0x04, 0x05, 0x06, 0x07, 0x08, 0x10, 0x11, 0x12, 0x13]
  ++ [0x14, 0x15, 0x16, 0x17, 0x18, 0x19, 0x1A, 0x1B, 0x1C, 0x1D, 0x1E, 0x1F, 0x01, 0x00, 0x00, 0x00]
  ++ [0x00, 0x00, 0x00, 0x00, 0x31, 0x32, 0x33, 0x34, 0x35, 0x36, 0x37, 0x38, 0x39, 0x30, 0x31, 0x32]
  ++ [0x00, 0x50, 0xF2, 0x12, 0x34, 0x56, 0x00, 0x00, 0xA0, 0xA1, 0xA2, 0xA3, 0xA4, 0xA5, 0xA6, 0xA7]
  ++ [0xA8, 0xA9, 0xAA, 0xAB, 0xAC, 0xAD, 0xAE, 0xAF, 0x00, 0x01, 0x40, 0x00, 0x00, 0x00, 0x00, 0x00]
  ++ [0x00, 0x00, 0x00, 0x00, 0x00, 0x01, 0x02, 0x03, 0x04, 0x05, 0x06, 0x07, 0x08, 0x09, 0x0A, 0x0B]
  ++ [0x0C, 0x0D, 0x0E, 0x0F, 0x10, 0x11, 0x12, 0x13, 0x14, 0x15, 0x16, 0x17, 0x18, 0x19, 0x1A, 0x1B]
  ++ [0x1C, 0x1D, 0x1E, 0x1F, 0x20, 0x21, 0x22, 0x23, 0x24, 0x25, 0x26, 0x27, 0x28, 0x29, 0x2A, 0x2B]
  ++ [0x2C, 0x2D, 0x2E, 0x2F, 0x30, 0x31, 0x32, 0x33, 0x34, 0x35, 0x36, 0x37, 0x38, 0x39, 0x3A, 0x3B]
  ++ [0x3C, 0x3D, 0x3E, 0x3F, 0x40, 0x41, 0x42, 0x43, 0x44, 0x45, 0x46, 0x47, 0x48, 0x49, 0x4A, 0x4B]
  ++ [0x4C, 0x4D, 0x4E, 0x4F, 0x50, 0x51, 0x52, 0x53, 0x54, 0x55, 0x56, 0x57, 0x58, 0x59, 0x5A, 0x5B]
  ++ List.replicate 64 0xEE

theorem sample_length : sample.length = 256 := by decide +kernel

/-- V-EN-1's image E1. -/
def imageE1 : List Byte :=
  [0x33, 0x75, 0xBD, 0x58, 0x9C, 0x62, 0x9B, 0x44, 0x0F, 0xB8, 0x33, 0x69, 0x3D, 0x2C, 0xA0, 0x57]
  ++ [0x2D, 0x31, 0x96, 0x84, 0x8C, 0xA0, 0xA0, 0x61, 0x05, 0x12, 0xEC, 0x92, 0x6E, 0xC9, 0x1D, 0xB5]
  ++ [0x97, 0x62, 0x25, 0xFA, 0x23, 0xC4, 0x78, 0x96, 0xCA, 0x95, 0x85, 0x32, 0x86, 0x51, 0x56, 0x60]
  ++ [0x91, 0x21, 0x8F, 0xA7, 0x31, 0x32, 0x33, 0x34, 0x35, 0x36, 0x37, 0x38, 0x39, 0x30, 0x31, 0x32]
  ++ [0x00, 0x50, 0xF2, 0x12, 0x34, 0x56, 0x00, 0x00, 0xA0, 0xA1, 0xA2, 0xA3, 0xA4, 0xA5, 0xA6, 0xA7]
  ++ [0xA8, 0xA9, 0xAA, 0xAB, 0xAC, 0xAD, 0xAE, 0xAF, 0x00, 0x01, 0x40, 0x00, 0x00, 0x00, 0x00, 0x00]
  ++ [0x07, 0xF1, 0xD9, 0xC2, 0x00, 0x01, 0x02, 0x03, 0x04, 0x05, 0x06, 0x07, 0x08, 0x09, 0x0A, 0x0B]
  ++ sample.drop 0x70

/-! ## Well-formedness: an ill-formed command for each check of R227, and the legal neighbour of it -/

theorem test_wellFormed_refuses_revision :
    (Instr.khash 4 .inBuf 0 3).wellFormed = false ∧ (Instr.khash 3 .inBuf 0 3).wellFormed = true ∧
    (Instr.encode 15).wellFormed = false ∧ (Instr.encode 3).wellFormed = true := by decide

theorem test_wellFormed_refuses_alignment :
    (Instr.cksum .inBuf 1 4).wellFormed = false ∧ (Instr.cksum .inBuf 0 6).wellFormed = false ∧
    (Instr.cksum .inBuf 4 8).wellFormed = true := by decide

theorem test_wellFormed_refuses_range :
    (Instr.cksum .inBuf 252 8).wellFormed = false ∧ (Instr.cksum .inBuf 252 4).wellFormed = true ∧
    (Instr.khash 0 .inBuf 200 100).wellFormed = false ∧ (Instr.rc4x .inBuf 250 10).wellFormed = false ∧
    (Instr.rc4x .inBuf 250 6).wellFormed = true := by decide

/-! ## Decoding: words written bit by bit from R81, LEN OFF RSV SRC REV OP -/

theorem test_decode_nop : decodeWord 0b00000000_00000000_000_0_0000_00000000 = .ok .nop := by decide

theorem test_decode_cksum :
    decodeWord 0b01011100_01100100_000_1_0000_00000001 = .ok (.cksum .outBuf 100 92) := by decide

theorem test_decode_khash :
    decodeWord 0b00011100_00010100_000_1_0011_00000010 = .ok (.khash 3 .outBuf 20 28) := by decide

theorem test_decode_rc4x :
    decodeWord 0b11111111_00000001_000_0_0000_00000011 = .ok (.rc4x .inBuf 1 255) := by decide

theorem test_decode_decode : decodeWord 0b00000000_00000000_000_0_0000_00000100 = .ok .decode := by decide

theorem test_decode_encode : decodeWord 0b00000000_00000000_000_0_1010_00000101 = .ok (.encode 10) := by decide

/-- R86: one illegal word for each reason, and the order of checks 1 to 3. -/
theorem test_decode_illegal :
    decodeWord 0xFFFFFFFF = .error (.illegalOpcode 0xFF) ∧ decodeWord 0x00008005 = .error .reservedBits ∧
    decodeWord 0x00001105 = .error .unusedField ∧ decodeWord 0x00010000 = .error .unusedField ∧
    decodeWord 0x00001004 = .error .unusedField ∧ decodeWord 0x08000101 = .error .unusedField ∧
    decodeWord 0x00000803 = .error .unusedField ∧ decodeBytes [0, 0, 0] = .error .notOneWord := by decide

/-- R80: CMD's bytes are little-endian (`cksum in, 0, 8` is 0x08000001). -/
theorem test_decodeBytes_little_endian :
    decodeBytes [0x01, 0x00, 0x00, 0x08] = .ok (.cksum .inBuf 0 8) ∧
    decodeTableWord 32 0x08000001 = some (.cksum .inBuf 0 8) := by decide

/-! ## The commands -/

/-- P4's last command. -/
theorem test_nop : step (pendingWord 0 [] 0) = .next { pendingWord 0 [] 0 with status := 0x00000F00 } := by rfl

/-- V-CK-3: a carry into the high half. -/
theorem test_cksum_carry :
    (cksumResult .inBuf 0 8 (loaded .inBuf 0 [0xFF, 0xFF, 0xFF, 0xFF, 1, 0, 0, 0])).cksum = some 0xFFFFFFFE := by
  decide +kernel

/-- 95: 0xFF010001 is ALIGN, not RANGE, and `cksum in, 252, 8` is RANGE. -/
theorem test_cksum_check_order :
    validate 0xFF010001 = .align ∧ (cksumResult .inBuf 1 255 State.reset).status = 0x00000F04 ∧
    (cksumResult .inBuf 252 8 State.reset).status = 0x00000F05 := by decide +kernel

/-- V-KH-3b, at the command level. -/
theorem test_khash_abc :
    (khashResult testCfg 0 .inBuf 0 3 (loaded .inBuf 0 [0x61, 0x62, 0x63])).readCells .digest 0 20 =
      .ok [0x7B, 0xE3, 0x84, 0x6A, 0x82, 0xED, 0x26, 0x4E, 0x17, 0x8A, 0x7E, 0xDE, 0x21, 0xB0, 0x75, 0xA1, 0x82, 0x59,
        0x23, 0x4A] := by decide +kernel

/-- V-KH-6a and V-KH-1a: PREFIX_LEN counts in the length field, and the public IV gives SHA-1. -/
theorem test_seededSha1_prefix :
    seededSha1 64 (testCfg.seedA .debug) [0x61, 0x62, 0x63] =
      [0x36, 0xC0, 0xFF, 0xC5, 0xA7, 0x28, 0xAC, 0x9C, 0xF0, 0x0A, 0x48, 0x59, 0x39, 0xC3, 0xF6, 0x44, 0x45, 0x8D,
        0xBC, 0x0B] ∧
    sha1 [0x61, 0x62, 0x63] =
      [0xA9, 0x99, 0x3E, 0x36, 0x47, 0x06, 0x81, 0x6A, 0xBA, 0x3E, 0x25, 0x71, 0x78, 0x50, 0xC2, 0x6C, 0x9C, 0xD0,
        0xD8, 0x9D] := by decide +kernel

/-- The internal RC4 key of V-EN-1, KeyedHash(1, tag). -/
def keyE1 : List Byte :=
  [0x95, 0xC4, 0xB5, 0xD4, 0x3B, 0x5A, 0x1A, 0x4D, 0x5B, 0xA4, 0x34, 0xAD, 0xD0, 0xD7, 0xF6, 0x61, 0xA7, 0x93, 0x86,
    0x1E]

/-- V-EN-1: the key and the tag it gives, by KeyedHash. -/
theorem test_keyedHash_e1 :
    keyedHash testCfg .retail1 (imageBlock sample) = imageTag imageE1 ∧
    keyedHash testCfg .retail1 (imageTag imageE1) = keyE1 := by decide +kernel

/-- V-EN-1: the keystream of that key is the XOR of SAMPLE's protected block and E1's. -/
theorem test_keystream_e1 :
    keystream keyE1 28 = List.zipWith (· ^^^ ·) (imageBlock sample) (imageBlock imageE1) := by decide +kernel

/-- P3, step 2: `rc4x.pb in` with that key in DIGEST leaves SAMPLE's protected block in OUT. -/
theorem test_rc4x_e1 :
    exec (rc4xPb .inBuf) ((loaded .inBuf 0 imageE1).writeCells .digest 0 keyE1) =
      .next ((((loaded .inBuf 0 imageE1).writeCells .digest 0 keyE1).writeCells .outBuf 0x14
        (imageBlock sample)).complete 0xF) := by
  have hk : ((loaded .inBuf 0 imageE1).writeCells .digest 0 keyE1).holds .digest 0 keyE1 :=
    State.holds_writeCells_self _ _ _ _
  have hD : ((loaded .inBuf 0 imageE1).writeCells .digest 0 keyE1).holds (srcBuffer .inBuf) (0x14 : BitVec 8).toNat
      (imageBlock imageE1) := by
    refine State.holds_writeCells_other (.inl (by decide +kernel)) ?_
    rw [loaded, show imageE1 = imageTag imageE1 ++ imageBlock imageE1 ++ imageE1.drop 0x30 by decide +kernel]
    exact State.holds_writeCells _ _ 0 (imageTag imageE1) (imageBlock imageE1) (imageE1.drop 0x30)
  have hr : rc4 keyE1 (imageBlock imageE1) = imageBlock sample := by
    rw [rc4, show (imageBlock imageE1).length = 28 by decide +kernel, test_keystream_e1]
    decide +kernel
  rw [rc4xPb, execRc4x_eq, rc4xResult_wellFormed (by decide),
    State.withCells_of_holds (by decide) hk, State.withCells_of_holds (by decide +kernel) hD, hr]
  rfl

/-- 95: `rc4x in, 0, 0` still faults if DIGEST holds ⊥; `rc4x in, 250, 10` is RANGE. -/
theorem test_rc4x_empty_reads_digest :
    (rc4xResult .inBuf 0 0 State.reset).fault = some (.undefReadBlock .digest 0) ∧
    (rc4xResult .inBuf 250 10 State.reset).status = 0x00000F05 := by decide +kernel

/-- V-EN-1: OUT is E1. -/
theorem test_encode_sample :
    encodedImage testCfg .retail1 (imageBlock sample) (slice sample 0x34 0x60) (slice sample 0x64 0x100) = imageE1 := by
  simp only [encodedImage, test_keyedHash_e1.1, test_keyedHash_e1.2, rc4]
  rw [show (imageBlock sample).length = 28 by decide +kernel, test_keystream_e1]
  decide +kernel

/-- V-EN-4: `encode 4` on ⊥ cells, and the illegal word that check 3 refuses before the revision is looked at. -/
theorem test_encode_unsupported :
    (encodeResult testCfg 4 State.reset) = { State.reset with status := 0x00000F02 } ∧
    validate 0x00001105 = .illegalCommand ∧ validate 0x00000405 = .unsupportedRevision := by decide +kernel

/-- V-DE-1: Retail1 accepts E1, and E1 decodes to SAMPLE's protected block between E1's own other bytes. -/
theorem test_decode_e1 :
    accepts testCfg imageE1 .retail1 = true ∧
    decodedImage testCfg imageE1 .retail1 = slice imageE1 0 0x14 ++ slice sample 0x14 0x30 ++ imageE1.drop 0x30 := by
  have h : candidatePlain testCfg imageE1 .retail1 = imageBlock sample := by
    rw [candidatePlain, test_keyedHash_e1.2, rc4, show (imageBlock imageE1).length = 28 by decide +kernel,
      test_keystream_e1]
    decide +kernel
  simp only [accepts, decodedImage, h, test_keyedHash_e1.1]
  decide +kernel

/-- V-DE-1: Debug, which is tried first, does not accept E1. -/
theorem test_decode_e1_debug : accepts testCfg imageE1 .debug = false := by decide +kernel

/-- V-DE-1: so the resolver answers Retail1. -/
theorem test_decode_e1_first_match :
    resolve testCfg imageE1 = some (decodedImage testCfg imageE1 .retail1, .retail1) := by
  have hf : candidates.find? (accepts testCfg imageE1) = some .retail1 := by
    rw [candidates, List.find?_cons_of_neg (ne_true_of_eq_false test_decode_e1_debug), List.find?_cons_of_pos test_decode_e1.1]
  rw [resolve, hf]

/-- V-DE-7: DECODE reads all 256 cells. -/
theorem test_decode_undefined_cell :
    (decodeResult testCfg (loaded .inBuf 0 (sample.take 0x30))).fault = some (.undefReadBlock .inBuf 0x30) := by
  decide +kernel

/-- V-EN-4 and V-DE-6, placed as the machine's next command after reset. -/
theorem test_withFetchWord :
    step (State.reset.withFetchWord 32 0x00000405) =
      .next { State.reset.withFetchWord 32 0x00000405 with status := 0x00000F02 } ∧
    step (State.reset.withFetchWord 32 0x00000104) =
      .next { State.reset.withFetchWord 32 0x00000104 with status := 0x00000F01 } := ⟨rfl, rfl⟩

/-! ## The host window: the vectors of 95_test_vectors.md -/

/-- `sw 0x000, 0x04030201` then `lb 0x002` and `lh 0x002`, in any configuration. -/
theorem test_window_little_endian (cfg : Config) :
    memRead cfg (idle (Memory.setBytes [] 0 (leBytes32 0x04030201)) []) 2 1 = .ok 0x03 ∧
    memRead cfg (idle (Memory.setBytes [] 0 (leBytes32 0x04030201)) []) 2 2 = .ok 0x0403 := ⟨rfl, rfl⟩

/-- The refused accesses of 95, and `lh 0x212`, which is legal. -/
theorem test_window_admitted :
    admitted .read 0x002 4 = false ∧ admitted .read 0x228 4 = false ∧ admitted .write 0x224 4 = false ∧
    admitted .read 0x220 1 = false ∧ admitted .read 0x214 4 = false ∧ admitted .read 0x1FE 4 = false ∧
    admitted .read 0x212 2 = true ∧ admitted .write 0x400 1 = false := by decide

/-- After reset `lb 0x000` is UNDEF_READ and `lw 0x224` gives 0x00000F00, in any configuration. -/
theorem test_window_after_reset (cfg : Config) :
    memRead cfg State.reset 0 1 = .error (.undefReadHost 0) ∧ memRead cfg State.reset 0x224 4 = .ok 0x00000F00 :=
  ⟨rfl, rfl⟩

/-- P5: the host's read of OUT before the block step is a HAZARD, and after it no step is left. -/
theorem test_hazard :
    step (pendingWord 0x00000105 [hostLw 0x100] 1) =
      .next { pendingWord 0x00000105 [hostLw 0x100] 1 with fault := some (.hazard 0x100) } := by rfl

/-- R89: `run cksum in, 0, 8` is `sw 0x228, 0x08000001` and `poll`. -/
theorem test_hostRun : hostRun (.cksum .inBuf 0 8) = [.write 0x228 [0x01, 0x00, 0x00, 0x08], .poll] := by decide

/-- R90: the worked pseudo-instructions. -/
theorem test_pseudo_words :
    encodeWord (cksumFactory .inBuf) = 0x2C340001 ∧ encodeWord (cksumUser .inBuf) = 0x5C640001 ∧
    encodeWord (khashTag 1 .inBuf) = 0x14000102 ∧ encodeWord (khashPb 1 .outBuf) = 0x1C141102 ∧
    encodeWord (rc4xPb .inBuf) = 0x1C140003 ∧ encodeWord (rc4xPb .outBuf) = 0x1C141003 := by decide

/-- R88: operands at the edge of their ranges. -/
theorem test_assembler_ranges :
    asmKhash 15 .outBuf 255 255 = some (.khash 15 .outBuf 255 255) ∧ asmKhash 16 .outBuf 0 0 = none ∧
    asmKhash 0 .outBuf 256 0 = none ∧ asmKhash 0 .outBuf 0 256 = none ∧
    asmCksum .inBuf 252 4 = some (.cksum .inBuf 252 4) ∧ asmCksum .inBuf 256 0 = none ∧
    asmRc4x .inBuf 0 255 = some (.rc4x .inBuf 0 255) ∧ asmRc4x .inBuf 0 256 = none ∧
    asmEncode 15 = some (.encode 15) ∧ asmEncode 16 = none := by decide

/-! ## Witnesses: the hypotheses of each statement can be met -/

theorem witness_EncodeOfDecodeIsIdentity : decodeWord 0x1C141102 = .ok (.khash 1 .outBuf 0x14 28) := by decide

/-- The block is due with any word latched; and one word for each reason of R222, at a boundary of the field. -/
theorem witness_IllegalWordsAreReported :
    (∀ v, (pendingWord v [] 0).blockDue ∧ (pendingWord v [] 0).pending = some v) ∧
    6 ≤ ((0x00000006 : Word).extractLsb' 0 8).toNat ∧ (0x00002000 : Word).extractLsb' 13 3 ≠ 0 ∧
    (0x00000100 : Word).extractLsb' 0 8 = 0 ∧ (0x00000100 : Word).extractLsb' 8 24 ≠ 0 ∧
    (0x80000004 : Word).extractLsb' 0 8 = 4 ∧ (0x80000004 : Word).extractLsb' 8 24 ≠ 0 ∧
    (0x00000F01 : Word).extractLsb' 0 8 = 1 ∧ (0x00000F01 : Word).extractLsb' 8 4 ≠ 0 ∧
    (0x00000103 : Word).extractLsb' 0 8 = 3 ∧ (0x00000103 : Word).extractLsb' 8 4 ≠ 0 ∧
    (0x00001005 : Word).extractLsb' 0 8 = 5 ∧ (0x00001005 : Word).extractLsb' 12 20 ≠ 0 :=
  ⟨fun _ => ⟨⟨rfl, show statusBusy 0x80000F00 = true by decide, .inl rfl⟩, rfl⟩, by decide⟩

/-- A word that each check of R227 refuses, and one that all accept. -/
theorem witness_ValidationOrderIsTheStepsOrder :
    (pendingWord 0 [] 0).blockDue ∧ (pendingWord 0xFF010001 [hostLw 0x224] 0).blockDue ∧
    validate 0x00000006 = .illegalCommand ∧ validate 0x00002004 = .illegalCommand ∧
    validate 0x00000104 = .illegalCommand ∧ validate 0x64C80402 = .unsupportedRevision ∧
    validate 0xFF010001 = .align ∧ validate 0x08FC0001 = .range ∧ validate 0x04FC0001 = .ok := by decide +kernel

theorem witness_StepRunsTheDecodedCommand :
    (pendingWord 0x08000001 [.poll] 0).blockDue ∧ (pendingWord 0x08000001 [] 3).blockDue ∧
    (pendingWord 0x08000001 [] 3).pending = some 0x08000001 ∧
    decodeWord 0x08000001 = .ok (.cksum .inBuf 0 8) := by decide

theorem witness_IdleMachineWaits : State.reset.isFinal := by decide

/-- A faulted state with no reset to come, and one with a next state. -/
theorem witness_FaultMarkStopsAllButReset :
    (State.reset.raise (.hazard 0)).fault = some (.hazard 0) ∧
    HostAction.reset ∉ (State.reset.raise (.hazard 0)).hostQueue ∧
    ∃ t, step ((idle [] [.poll, .reset]).raise (.hazard 0)) = .next t := ⟨rfl, by decide, _, rfl⟩

/-- Reset of a faulted, of an idle and of a busy machine. -/
theorem witness_ResetSetsEveryPieceOfState :
    ((idle [(0, 1)] [.reset]).raise (.badAccess 2 4 .read)).fault ≠ none ∧ (idle [(0, 1)] [.reset]).busy = false ∧
    (pendingWord 5 [.reset, .poll] 1).delay ≠ 0 ∧ (pendingWord 5 [.reset, .poll] 1).busy = true := by decide

theorem witness_PollWaitsUntilTheBlockIsDue :
    ∀ d ∈ [0, 1, 7], (pendingWord 5 [.poll] d).fault = none ∧ (pendingWord 5 [.poll] d).busy = true ∧
      (pendingWord 5 [.poll] d).hostQueue = .poll :: [] := by decide

/-- NOP does not fault, so the inner hypothesis is met too. -/
theorem witness_RunPseudoInstructionCompletes :
    (idle [] (hostRun .nop ++ [.poll])).fault = none ∧ (idle [] (hostRun .nop ++ [.poll])).busy = false ∧
    ∃ u, exec .nop { idle [] (hostRun .nop ++ [.poll]) with
      pending := some (encodeWord .nop), status := 0x80000F00 } = .next u ∧ u.fault = none :=
  ⟨rfl, by decide, _, rfl, rfl⟩

theorem witness_InadmissibleAccessIsBadAccess :
    (idle [] [.read 0x002 4]).hostDue (.read 0x002 4) [] ∧ admitted .read 0x002 4 = false ∧
    (idle [] [.write 0x400 [0]]).hostDue (.write 0x400 [0]) [] ∧ admitted .write 0x400 1 = false ∧
    (idle [] [.write 0x224 [0]]).busy = false := by decide

/-- A plain hazard, and an access that breaks both rules. -/
theorem witness_AccessWhileBusyIsHazard :
    (pendingWord 4 [.read 0x100 4] 1).hostDue (.read 0x100 4) [] ∧ (pendingWord 4 [.read 0x100 4] 1).busy = true ∧
    admitted .read 0x100 4 = true ∧ (pendingWord 4 [.read 0x224 1] 1).hostDue (.read 0x224 1) [] ∧
    admitted .read 0x224 1 = false ∧
    (pendingWord 4 [hostSw 0x228 0] 2).hostDue (hostSw 0x228 0) [] := by decide

theorem witness_StatusReadIsAlwaysServed :
    (pendingWord 4 [.read 0x224 4] 1).hostDue (.read 0x224 4) [] ∧
    (idle [] [.read 0x224 4]).hostDue (.read 0x224 4) [] := by decide

/-- The last half-word of DIGEST. -/
theorem witness_HostReadReturnsLittleEndianCells :
    (idle [(0x212, 7), (0x213, 9)] [.read 0x212 2]).hostDue (.read 0x212 2) [] ∧
    admitted .read 0x212 ([7, 9] : List Byte).length = true ∧
    ∀ k < ([7, 9] : List Byte).length,
      Memory.get? (idle [(0x212, 7), (0x213, 9)] [.read 0x212 2]).mem (0x212 + k) = ([7, 9] : List Byte)[k]? := by decide

theorem witness_HostReadOfUndefinedCellFaults :
    (idle [(0, 7)] [.read 0 2]).hostDue (.read 0 2) [] ∧ admitted .read 0 2 = true ∧
    Memory.get? (idle [(0, 7)] [.read 0 2]).mem (0 + 1) = none ∧
    (idle [] [.read 0x220 4]).hostDue (.read 0x220 4) [] ∧ (idle [] [.read 0x220 4]).cksum = none := by decide

theorem witness_HostReadsCksum :
    { idle [] [.read 0x220 4] with cksum := some 5 }.hostDue (.read 0x220 4) [] ∧
    { idle [] [.read 0x220 4] with cksum := some 5 }.busy = false := by decide

/-- The last word of DIGEST and the first byte of IN. -/
theorem witness_HostWriteStoresItsBytes :
    (idle [] [.write 0x210 [1, 2, 3, 4]]).hostDue (.write 0x210 [1, 2, 3, 4]) [] ∧ admitted .write 0x210 4 = true ∧
    (idle [] [.write 0 [1]]).hostDue (.write 0 [1]) [] ∧ admitted .write 0 1 = true ∧
    (idle [] [.write 0 [1]]).busy = false := by decide

theorem witness_NarrowReadsAgreeWithTheWordWritten :
    (idle [] [hostSw 0x210 0x04030201]).hostDue (hostSw 0x210 0x04030201) [] ∧
    (idle [] [hostSw 0x210 0x04030201]).busy = false ∧ 0x210 % 4 = 0 ∧ 0x210 < 0x214 := by decide

theorem witness_CmdWriteLaunches :
    (idle [] [hostSw 0x228 5, .poll]).hostDue (hostSw 0x228 5) [.poll] ∧
    (idle [] [hostSw 0x228 5, .poll]).busy = false := by decide

theorem witness_HostReadsHaveNoSideEffect :
    (pendingWord 5 [.poll] 1).hostDue .poll [] ∧ (∃ t, step (pendingWord 5 [.poll] 1) = .next t) ∧
    (idle [] [.read 0 1]).hostDue (.read 0 1) [] ∧ ∃ t, step (idle [] [.read 0 1]) = .next t :=
  ⟨by decide, ⟨_, rfl⟩, by decide, ⟨_, rfl⟩⟩

theorem witness_NopWritesOnlyStatus :
    (0 : Word).extractLsb' 0 8 = 0 ∧ (0x00000100 : Word).extractLsb' 0 8 = 0 := by decide

/-- The largest aligned region at the end of IN, and an empty one of OUT. -/
theorem witness_CksumStoresTheChecksum :
    (4 : BitVec 8).toNat + (252 : BitVec 8).toNat ≤ 256 ∧
    (loaded .inBuf 4 (List.replicate 252 0xFF)).holds .inBuf 4 (List.replicate 252 0xFF) ∧
    State.reset.holds .outBuf 252 [] :=
  ⟨by decide, loaded_holds _ _ _, fun _ h => absurd h (by simp)⟩

theorem witness_CksumReportsAlignThenRange :
    (1 : BitVec 8).toNat % 4 ≠ 0 ∧ (255 : BitVec 8).toNat % 4 ≠ 0 ∧
    ((252 : BitVec 8).toNat % 4 = 0 ∧ (8 : BitVec 8).toNat % 4 = 0 ∧
      256 < (252 : BitVec 8).toNat + (8 : BitVec 8).toNat) := by decide

/-- A region that ends at 256, and an empty one. -/
theorem witness_KhashStoresTheKeyedHash :
    (1 : BitVec 8).toNat + (255 : BitVec 8).toNat ≤ 256 ∧
    (loaded .outBuf 1 (List.replicate 255 3)).holds .outBuf 1 (List.replicate 255 3) ∧
    State.reset.holds .inBuf 0 [] :=
  ⟨by decide, loaded_holds _ _ _, fun _ h => absurd h (by simp)⟩

theorem witness_KhashReportsRevisionThenRange :
    4 ≤ (4 : BitVec 4).toNat ∧ 4 ≤ (15 : BitVec 4).toNat ∧ (3 : BitVec 4).toNat < 4 ∧
    256 < (2 : BitVec 8).toNat + (255 : BitVec 8).toNat := by decide

/-- DIGEST holds a key, and a region of OUT that ends at 256 holds data. -/
theorem witness_Rc4xStoresTheTransform :
    (250 : BitVec 8).toNat + (6 : BitVec 8).toNat ≤ 256 ∧
    ((loaded .outBuf 250 (List.replicate 6 3)).writeCells .digest 0 keyE1).holds .digest 0 keyE1 ∧
    ((loaded .outBuf 250 (List.replicate 6 3)).writeCells .digest 0 keyE1).holds .outBuf 250 (List.replicate 6 3) :=
  ⟨by decide, State.holds_writeCells_self _ _ _ _,
    State.holds_writeCells_other (.inl (by decide)) (loaded_holds _ _ _)⟩

theorem witness_Rc4xReportsRange : 256 < (2 : BitVec 8).toNat + (255 : BitVec 8).toNat := by decide

theorem witness_DecodeResolvesTheImage :
    (List.replicate 256 (0xFF : Byte)).length = 256 ∧
    (loaded .inBuf 0 (List.replicate 256 0xFF)).holds .inBuf 0 (List.replicate 256 0xFF) :=
  ⟨List.length_replicate, loaded_holds _ _ _⟩

/-- IN with only ENCODE's read set written: the tag and checksum fields are ⊥. -/
def encodeInput : State :=
  ((loaded .inBuf 0x14 (slice sample 0x14 0x30)).writeCells .inBuf 0x34 (slice sample 0x34 0x60)).writeCells .inBuf 0x64
    (slice sample 0x64 0x100)

theorem encodeInput_holds :
    encodeInput.holds .inBuf 0x14 (slice sample 0x14 0x30) ∧ encodeInput.holds .inBuf 0x34 (slice sample 0x34 0x60) ∧
    encodeInput.holds .inBuf 0x64 (slice sample 0x64 0x100) :=
  ⟨State.holds_writeCells_other (.inl (by decide +kernel))
      (State.holds_writeCells_other (.inl (by decide +kernel)) (loaded_holds _ _ _)),
    State.holds_writeCells_other (.inl (by decide +kernel)) (State.holds_writeCells_self _ _ _ _),
    State.holds_writeCells_self _ _ _ _⟩

theorem witness_EncodeWritesTheEncodedImage :
    encodeInput.holds .inBuf 0x14 (slice sample 0x14 0x30) ∧ encodeInput.holds .inBuf 0x34 (slice sample 0x34 0x60) ∧
    encodeInput.holds .inBuf 0x64 (slice sample 0x64 0xC0 ++ slice sample 0xC0 0x100) ∧
    encodeInput.cell? .inBuf 0x30 = none := by
  refine ⟨encodeInput_holds.1, encodeInput_holds.2.1, ?_, ?_⟩
  · rw [show slice sample 0x64 0xC0 ++ slice sample 0xC0 0x100 = slice sample 0x64 0x100 by decide +kernel]
    exact encodeInput_holds.2.2
  · rw [encodeInput, State.cell?_writeCells, if_neg (by decide), State.cell?_writeCells, if_neg (by decide), loaded_cell,
      if_neg (by decide +kernel)]

theorem witness_EncodeRejectsUnsupportedRevision : 4 ≤ (4 : BitVec 4).toNat ∧ 4 ≤ (15 : BitVec 4).toNat := by decide

/-- One state for each clause; the first ⊥ cell at the start, inside and at the end of what is read. -/
theorem witness_CommandReadingUndefinedCellFaults :
    State.reset.firstUndef .inBuf 252 4 252 ∧ (loaded .outBuf 0 [1, 2]).firstUndef .outBuf 0 3 2 ∧
    State.reset.firstUndef .digest 0 20 0 ∧
    ((∀ j < 20, (loaded .digest 0 keyE1).cell? .digest j ≠ none) ∧
      (loaded .digest 0 keyE1).firstUndef .inBuf 0 1 0) ∧
    (loaded .inBuf 0 (List.replicate 255 1)).firstUndef .inBuf 0 256 (List.replicate 255 (1 : Byte)).length ∧
    ((loaded .inBuf 0x14 (slice sample 0x14 0x30)).cell? .inBuf 0x34 = none ∧
      ∀ j < 0x34, (0x14 ≤ j ∧ j < 0x30 ∨ 0x34 ≤ j ∧ j < 0x60 ∨ 0x64 ≤ j) →
        (loaded .inBuf 0x14 (slice sample 0x14 0x30)).cell? .inBuf j ≠ none) ∧
    (Instr.rc4x .inBuf 0 1).wellFormed = true ∧ (Instr.encode 3).wellFormed = true := by
  refine ⟨?_, ?_, ?_, ⟨?_, ?_⟩, loaded_firstUndef _ _ _ (by rw [List.length_replicate]; decide), ⟨?_, ?_⟩, ?_, ?_⟩ <;> decide +kernel

theorem witness_CommandsWriteOnlyTheirOwnState :
    ∃ t, exec (.cksum .inBuf 0 8) State.reset = .next t := ⟨_, rfl⟩

/-- A launch, the end of a command, and reset each change STATUS. -/
theorem witness_StatusChangesInThreeCases :
    (∃ t, step (idle [] [hostSw 0x228 0]) = .next t ∧ t.status ≠ 0x00000F00) ∧
    (∃ t, step (pendingWord 0 [] 0) = .next t ∧ t.status ≠ 0x80000F00) ∧
    (∃ t, step (pendingWord 0 [.reset] 1) = .next t ∧ t.status ≠ 0x80000F00) :=
  ⟨⟨_, rfl, by decide⟩, ⟨_, rfl, by decide⟩, ⟨_, rfl, by decide⟩⟩

/-- A state with DIGEST's last cell written has the invariant, and so has a busy state, which has a step. -/
theorem witness_EveryStepKeepsTheInvariant :
    (loaded .digest 19 [7]).Inv ∧ (pendingWord 0 [] 0).Inv ∧ ∃ t, step (pendingWord 0 [] 0) = .next t :=
  ⟨⟨by decide, by decide, by decide, by decide⟩, ⟨by decide, by decide, by decide, by decide⟩, _, rfl⟩

/-- The bounds of the first clause. The checksums beside them are V-CK-2 and one word of V-CK-9's kind. -/
theorem witness_ChecksumOfUniformRegions :
    (1 ≤ 1 ∧ 1 ≤ 63 ∧ 63 ≤ 63) ∧ checksum (List.replicate (4 * 1) 0xFF) = 0 ∧
    checksum (List.replicate (4 * 0) 0) = 0xFFFFFFFF := by decide +kernel

theorem witness_ScheduleFollowsTheRecurrence : (List.replicate 64 (0x61 : Byte)).length = 64 := List.length_replicate

theorem witness_CompressionRunsTheEightyRounds : (List.replicate 64 (0x61 : Byte)).length = 64 := List.length_replicate

theorem witness_RoundFunctionsAndConstants : 79 < 80 ∧ 31 < 32 := by decide

/-- The key of V-EN-1; and the identity array. -/
theorem witness_KeySchedulingFollowsItsLoop : keyE1.length = 20 := by decide

theorem witness_KeystreamFollowsItsLoop : ((List.range 256).map (BitVec.ofNat 8)).length = 256 := by
  rw [List.length_map, List.length_range]

/-- V-KH-5's key, "Jefe" padded to a block; the state after it is the seed the vector lists as SeedA. -/
theorem witness_KeyedHashIsHmacUnderKeyBlockSeeds :
    ([0x4A, 0x65, 0x66, 0x65] ++ List.replicate 60 (0 : Byte)).length = 64 ∧
    compress (loadSeed publicIv) (xorPad ([0x4A, 0x65, 0x66, 0x65] ++ List.replicate 60 0) 0x36) =
      ⟨0x624D8EA7, 0x3F2B1803, 0x9554B9E4, 0x28C065F5, 0xA9FCB98E⟩ := by decide +kernel

theorem witness_Rc4IsItsOwnInverse : 0 < (imageBlock imageE1).length ∧ 27 < (imageBlock imageE1).length := by
  decide +kernel

/-- A configuration and an image with a match under Retail1, and the condition on earlier candidates at Debug. -/
theorem witness_ResolverTakesTheFirstMatch :
    accepts testCfg imageE1 .retail1 = true ∧ (∀ r' : Rev, ¬ (revCode r').toNat < (revCode .debug).toNat) :=
  ⟨test_decode_e1.1, fun r' => by cases r' <;> decide⟩

theorem witness_AcceptanceComparesTheWholeTag : imageE1.length = 256 := by decide +kernel

/-- An image that some candidate accepts is resolved. -/
theorem exists_resolve {cfg : Config} {raw : List Byte} {r : Rev} (h : accepts cfg raw r = true) :
    ∃ img r', resolve cfg raw = some (img, r') := by
  unfold resolve
  split
  · exact ⟨_, _, rfl⟩
  · rename_i hn
    exact absurd h (List.find?_eq_none.1 hn r (by cases r <;> decide))

/-- Two images that differ from byte 0x30 on, of which the first is accepted by some candidate. -/
theorem witness_UnauthenticatedBytesPassThrough :
    imageE1.length = 256 ∧ (imageE1.take 0x30 ++ List.replicate 208 0).length = 256 ∧
    imageE1.take 0x30 = (imageE1.take 0x30 ++ List.replicate 208 0).take 0x30 ∧
    ∃ img r, resolve testCfg imageE1 = some (img, r) :=
  ⟨by decide +kernel, by decide +kernel, by decide +kernel, exists_resolve test_decode_e1.1⟩

/-- V-EN-6: two inputs that differ in the ignored tag. -/
theorem witness_EncodeDependsOnlyOnItsReadSet :
    (∀ k, (0x14 ≤ k ∧ k < 0x30 ∨ 0x34 ≤ k ∧ k < 0x60 ∨ 0x64 ≤ k ∧ k < 0x100) →
      (loaded .inBuf 0 sample).cell? .inBuf k =
        ((loaded .inBuf 0 sample).writeCells .inBuf 0 (List.replicate 20 0xFF)).cell? .inBuf k ∧
      (loaded .inBuf 0 sample).cell? .inBuf k ≠ none) ∧
    (∃ t, exec (.encode 3) (loaded .inBuf 0 sample) = .next t) ∧
    ∃ t, exec (.encode 3) ((loaded .inBuf 0 sample).writeCells .inBuf 0 (List.replicate 20 0xFF)) = .next t := by
  refine ⟨fun k hk => ⟨?_, ?_⟩, ⟨_, rfl⟩, ⟨_, rfl⟩⟩
  · rw [State.cell?_writeCells, if_neg (by simp only [List.length_replicate]; omega)]
  · rw [loaded_cell, if_pos (by rw [sample_length]; omega),
      List.getElem?_eq_getElem (by rw [sample_length]; omega)]
    exact Option.some_ne_none _

theorem witness_EncodedImageStoresItsOwnChecksums : ∀ k < 256, (loaded .inBuf 0 sample).cell? .inBuf k ≠ none := by
  intro k hk
  rw [loaded_cell, if_pos (by rw [sample_length]; omega), List.getElem?_eq_getElem (by rw [sample_length]; omega)]
  exact Option.some_ne_none _

theorem witness_UnitCommandsReproduceTheResolver :
    imageE1.length = 256 ∧ (loaded .inBuf 0 imageE1).holds .inBuf 0 imageE1 := ⟨by decide +kernel, loaded_holds _ _ _⟩

/-- The outer hypotheses' input, and, for each encoded image `E`, a state that meets the inner ones under Debug. Which
candidates accept `E` under a later revision is open with SEED (log 3); under TESTSEED, E1 meets the condition for
Retail1. -/
theorem witness_EncodeThenDecodeRoundTrips :
    sample.length = 256 ∧ encodeInput.holds .inBuf 0x14 (slice sample 0x14 0x30) ∧
    encodeInput.holds .inBuf 0x34 (slice sample 0x34 0x60) ∧ encodeInput.holds .inBuf 0x64 (slice sample 0x64 0x100) ∧
    (∀ E : List Byte, (loaded .inBuf 0 E).holds .inBuf 0 E ∧
      ∀ r', (revCode r').toNat < (revCode .debug).toNat → accepts Config.platform E r' = false) ∧
    ∀ r', (revCode r').toNat < (revCode .retail1).toNat → accepts testCfg imageE1 r' = false :=
  ⟨sample_length, encodeInput_holds.1, encodeInput_holds.2.1, encodeInput_holds.2.2,
    fun E => ⟨loaded_holds _ _ _, fun r' h => absurd h (by cases r' <;> decide)⟩,
    fun r' h => by
      cases r' with
      | debug => exact test_decode_e1_debug
      | retail1 => exact absurd h (by decide)
      | retail2 => exact absurd h (by decide)
      | retail3 => exact absurd h (by decide)⟩

end Sys2Proof.Tests
end

section
/-! Proofs about the persistent state (10_state.md): what a command and a host access can do to it, the invariant every
step keeps, and the reads of undefined cells. -/

namespace Sys2Proof.Machine

/-! ## What a command does when it succeeds -/

/-- The commands whose result goes to OUT (10_state.md R22). -/
inductive WritesOut : Instr → Prop where
  | rc4x (src : Src) (off len : BitVec 8) : WritesOut (.rc4x src off len)
  | decode : WritesOut .decode
  | encode (rev : BitVec 4) : WritesOut (.encode rev)

/-- The effect of a successful command on the state: which buffer or register takes its result, and which RREV its
STATUS says (10_state.md R21 to R25). -/
inductive CommandResult (s : State) : Instr → State → Prop where
  | status : CommandResult s .nop (s.complete rrevNone)
  | cksum (src : Src) (off len : BitVec 8) (v : Word) :
      CommandResult s (.cksum src off len) ((s.setCksum v).complete rrevNone)
  | digest (rev : BitVec 4) (src : Src) (off len : BitVec 8) (bs : List Byte) (hl : bs.length = 20) :
      CommandResult s (.khash rev src off len) ((s.writeCells .digest 0 bs).complete rrevNone)
  | out (i : Instr) (off : Nat) (bs : List Byte) (rrev : BitVec 4) (hi : WritesOut i)
      (hfit : off + bs.length ≤ 256) (hr : rrev = rrevNone ∨ ∃ r, rrev = revCode r) :
      CommandResult s i ((s.writeCells .outBuf off bs).complete rrev)

theorem CommandEnd.mono {s t : State} {P Q : State → Prop} (h : CommandEnd s P t) (hPQ : P t → Q t) :
    CommandEnd s Q t :=
  h.imp_right (Or.imp_right hPQ)

/-- Everything a command can do, with the parts of its result that later proofs about all commands need. -/
theorem exec_cases {i : Instr} {s t : State} (h : exec i s = .next t) : CommandEnd s (CommandResult s i) t := by
  cases i with
  | nop =>
    cases h
    exact commandEnd_done .status
  | cksum src off len =>
    cases h
    refine (cksumResult_cases src off len s).mono ?_
    rintro ⟨B, -, -, -, ht⟩
    exact ht ▸ .cksum src off len _
  | khash rev src off len =>
    cases h
    refine (khashResult_cases Config.platform rev src off len s).mono ?_
    rintro ⟨r, m, -, -, -, -, ht⟩
    exact ht ▸ .digest rev src off len _ (keyedHash_len ..)
  | rc4x src off len =>
    cases h
    refine (rc4xResult_cases src off len s).mono ?_
    rintro ⟨key, D, hfit, -, -, hl, -, ht⟩
    exact ht ▸ .out _ _ _ _ (.rc4x src off len) (by rw [rc4_length]; omega) (.inl rfl)
  | decode =>
    cases h
    refine (decodeResult_cases Config.platform s).mono ?_
    rintro ⟨raw, r, hl, -, -, ht⟩
    exact ht ▸ .out _ _ _ _ .decode (by rw [decodedImage_length hl]) (.inr ⟨r, rfl⟩)
  | encode rev =>
    cases h
    refine (encodeResult_cases Config.platform rev s).mono ?_
    rintro ⟨r, block, factory, userTail, -, hb, hf, hu, -, -, -, ht⟩
    exact ht ▸ .out _ _ _ _ (.encode rev) (by rw [encodedImage_length hb hf hu]) (.inl rfl)

/-! ## What a host action does -/

/-- The effects of a host action on the state: a fault, a value read, bytes stored in the buffers, a launch, or reset. -/
inductive HostEnd (s : State) : HostAction → State → Prop where
  | raised (a : HostAction) (f : Fault) : HostEnd s a (s.raise f)
  | served (a : HostAction) (off n : Nat) (v : Word) (q : List HostAction) :
      HostEnd s a ((s.recordRead off n v).setQueue q)
  | stored (off : Nat) (bytes : List Byte) (q : List HostAction) (hfit : off + bytes.length ≤ 0x214) :
      HostEnd s (.write off bytes) (State.setQueue { s with mem := Memory.setBytes s.mem off bytes } q)
  | launched (bytes : List Byte) (q : List HostAction) (hidle : s.busy = false) (hl : bytes.length = 4) :
      HostEnd s (.write offCmd bytes) ((s.launch (leValue bytes)).setQueue q)
  | reset (q : List HostAction) : HostEnd s .reset (s.assertReset q)

theorem hostStep_cases (cfg : Config) (a : HostAction) (rest : List HostAction) (s : State) :
    HostEnd s a (hostStep cfg a rest s) := by
  cases a with
  | read off n =>
    cases hr : memRead cfg s off n with
    | error f => simpa only [hostStep, hr] using .raised _ f
    | ok v => simpa only [hostStep, hr] using .served _ off n v rest
  | write off bytes =>
    rcases memWrite_cases cfg s off bytes with ⟨f, -, hw⟩ | ⟨-, hfit, hw⟩ | ⟨hidle, rfl, hl, hw⟩
    · simpa only [hostStep, hw] using .raised _ f
    · simpa only [hostStep, hw] using .stored off bytes rest hfit
    · simpa only [hostStep, hw] using .launched bytes rest hidle hl
  | poll =>
    simp only [hostStep, memRead_status]
    split
    · exact .served _ offStatus 4 s.status s.hostQueue
    · exact .served _ offStatus 4 s.status rest
  | reset => exact .reset rest

/-! ## The invariant -/

theorem statusLegal_report (e : Err) : statusLegal (doneStatus rrevNone e) := by
  cases e <;> decide

theorem statusLegal_complete {rrev : BitVec 4} (h : rrev = rrevNone ∨ ∃ r, rrev = revCode r) :
    statusLegal (doneStatus rrev .ok) := by
  rcases h with rfl | ⟨r, rfl⟩
  · decide
  · cases r <;> decide

theorem statusLegal_launch : statusLegal launchStatus := by decide

/-- The invariant speaks of memory, STATUS and PENDING only. -/
theorem State.Inv.of_eq {s t : State} (h : s.Inv) (hm : t.mem = s.mem) (hs : t.status = s.status)
    (hp : t.pending = s.pending) : t.Inv where
  memWf := hm ▸ h.memWf
  memRows := hm ▸ h.memRows
  statusOk := hs ▸ h.statusOk
  latched := by
    rw [State.busy_def, hs, hp]
    exact h.latched

/-- A legal STATUS that says BUSY = 0 keeps the invariant, whatever is latched. -/
theorem State.Inv.setStatus {s : State} (h : s.Inv) {v : Word} (hv : statusLegal v) (hidle : statusBusy v = false) :
    (s.setStatus v).Inv where
  memWf := h.memWf
  memRows := h.memRows
  statusOk := hv
  latched hb := by simp [State.busy_def, hidle] at hb

theorem State.Inv.report {s : State} (h : s.Inv) (e : Err) : (s.report e).Inv :=
  h.setStatus (statusLegal_report e) (statusBusy_doneStatus ..)

theorem State.Inv.complete {s : State} (h : s.Inv) {rrev : BitVec 4} (hr : rrev = rrevNone ∨ ∃ r, rrev = revCode r) :
    (s.complete rrev).Inv :=
  h.setStatus (statusLegal_complete hr) (statusBusy_doneStatus ..)

theorem State.Inv.launch {s : State} (h : s.Inv) (v : Word) : (s.launch v).Inv where
  memWf := h.memWf
  memRows := h.memRows
  statusOk := statusLegal_launch
  latched _ := Option.some_ne_none v

theorem State.Inv.assertReset (s : State) (q : List HostAction) : (s.assertReset q).Inv where
  memWf := List.Pairwise.nil
  memRows c hc := by cases hc
  statusOk := statusLegal_report .ok
  latched hb := by
    rw [State.busy_def, State.assertReset_status] at hb
    exact absurd hb (by decide)

/-- Bytes stored inside the three buffers keep the invariant (20_memory.md R51). -/
theorem State.Inv.setBytes {s : State} (h : s.Inv) {a : Nat} {bs : List Byte} (hfit : a + bs.length ≤ 0x214) :
    State.Inv { s with mem := Memory.setBytes s.mem a bs } where
  memWf := Memory.setBytes_wf h.memWf a bs
  memRows c hc := by
    rcases Memory.mem_setBytes hc with ⟨-, hlt⟩ | hc
    · omega
    · exact h.memRows c hc
  statusOk := h.statusOk
  latched := h.latched

theorem CommandResult.inv {i : Instr} {s t : State} (hr : CommandResult s i t) (h : s.Inv) : t.Inv := by
  cases hr with
  | status => exact h.complete (.inl rfl)
  | cksum src off len v => exact (h.of_eq (t := s.setCksum v) rfl rfl rfl).complete (.inl rfl)
  | digest rev src off len bs hl =>
    have hw : (s.writeCells .digest 0 bs).Inv := h.setBytes (by simp [Buffer.base, hl])
    exact hw.complete (.inl rfl)
  | out _ off bs rrev _ hfit hrrev =>
    have hw : (s.writeCells .outBuf off bs).Inv := h.setBytes (by simp only [Buffer.base]; omega)
    exact hw.complete hrrev

theorem exec_inv {i : Instr} {s t : State} (he : exec i s = .next t) (h : s.Inv) : t.Inv := by
  rcases exec_cases he with ⟨e, -, rfl⟩ | ⟨b, k, rfl⟩ | hr
  · exact h.report e
  · exact h.of_eq rfl rfl rfl
  · exact hr.inv h

theorem HostEnd.inv {a : HostAction} {s t : State} (he : HostEnd s a t) (h : s.Inv) : t.Inv := by
  cases he with
  | raised _ f => exact h.of_eq rfl rfl rfl
  | served _ off n v q => exact h.of_eq rfl rfl rfl
  | stored off bytes q hfit => exact (h.setBytes hfit).of_eq rfl rfl rfl
  | launched bytes q hidle hl => exact (h.launch _).of_eq rfl rfl rfl
  | reset q => exact .assertReset s q

/-- Settles O39: each kind of step keeps the invariant. -/
theorem everyStepKeepsTheInvariant : Obligations.EveryStepKeepsTheInvariant := by
  intro s t h hstep
  cases step_cases hstep with
  | resetAfterFault f q hf hq => exact .assertReset s q
  | idle hfinal => exact h
  | illegal hdue v e hv he => exact h.report .illegalCommand
  | command _ hdue v i hv hi ht => exact exec_inv ht h
  | host a rest hdue => exact (hostStep_cases Config.platform a rest s).inv h

/-! ## Changes of STATUS (10_state.md R25) -/

theorem CommandResult.status_eq {i : Instr} {s t : State} (hr : CommandResult s i t) :
    ∃ rrev, t.status = doneStatus rrev .ok := by
  cases hr <;> exact ⟨_, rfl⟩

theorem HostEnd.status_cases {a : HostAction} {s t : State} (he : HostEnd s a t) :
    t.status = s.status ∨
    (t.status = launchStatus ∧ s.busy = false ∧ ∃ bytes, bytes.length = 4 ∧ a = .write offCmd bytes) ∨
    (t.status = 0x00000F00 ∧ a = .reset) := by
  cases he with
  | raised _ f => exact .inl rfl
  | served _ off n v q => exact .inl rfl
  | stored off bytes q hfit => exact .inl rfl
  | launched bytes q hidle hl => exact .inr (.inl ⟨rfl, hidle, bytes, hl, rfl⟩)
  | reset q => exact .inr (.inr ⟨rfl, rfl⟩)

/-- Settles O38: each kind of step keeps STATUS or is one of R25's three cases. -/
theorem statusChangesInThreeCases : Obligations.StatusChangesInThreeCases := by
  intro s t hstep hne
  cases step_cases hstep with
  | resetAfterFault f q hf hq => exact .inr (.inr ⟨rfl, reset_mem_of_afterReset hq⟩)
  | idle hfinal => exact absurd rfl hne
  | illegal hdue v e hv he => exact .inr (.inl ⟨hdue, rrevNone, .illegalCommand, rfl⟩)
  | command _ hdue v i hv hi ht =>
    rcases exec_cases ht with ⟨e, -, rfl⟩ | ⟨b, k, rfl⟩ | hr
    · exact .inr (.inl ⟨hdue, rrevNone, e, rfl⟩)
    · exact absurd rfl hne
    · obtain ⟨rrev, hs⟩ := hr.status_eq
      exact .inr (.inl ⟨hdue, rrev, .ok, hs⟩)
  | host a rest hdue =>
    obtain ⟨-, hq, -⟩ := hdue
    rcases (hostStep_cases Config.platform a rest s).status_cases with hs | ⟨hs, hidle, bytes, hl, rfl⟩ | ⟨hs, rfl⟩
    · exact absurd hs hne
    · exact .inl ⟨hs.trans launchStatus_eq, hidle, bytes, rest, hl, hq⟩
    · exact .inr (.inr ⟨hs, by simp [hq]⟩)

/-! ## What a command leaves as it was -/

/-- A cell outside the region written is as before. -/
theorem State.get?_writeCells_of_outside {s : State} {b : Buffer} {off a : Nat} {bs : List Byte}
    (h : a < b.base + off ∨ b.base + off + bs.length ≤ a) :
    Memory.get? (s.writeCells b off bs).mem a = Memory.get? s.mem a := by
  rw [State.writeCells_mem, Memory.get?_setBytes, if_neg (by omega)]

/-- Settles O37: reports, faults and the four kinds of result each write only what is theirs. -/
theorem commandsWriteOnlyTheirOwnState : Obligations.CommandsWriteOnlyTheirOwnState := by
  intro i s t h
  rcases exec_cases h with ⟨e, -, rfl⟩ | ⟨b, k, rfl⟩ | hr
  · simp
  · simp
  cases hr with
  | status => simp
  | cksum src off len v => simp
  | digest rev src off len bs hl =>
    have hout : ∀ a, a < 0x200 ∨ 0x214 ≤ a →
        Memory.get? (s.writeCells .digest 0 bs).mem a = Memory.get? s.mem a := fun a ha =>
      State.get?_writeCells_of_outside (by simp only [Buffer.base]; omega)
    exact ⟨rfl, rfl, rfl, rfl, rfl, fun a ha => hout a (by omega), fun a ha => hout a (by omega),
      fun hi => absurd rfl (hi rev src off len), fun _ _ _ a ha => hout a (by omega), fun _ => rfl⟩
  | out _ off bs rrev hw hfit hrrev =>
    have hout : ∀ a, a < 0x100 ∨ 0x200 ≤ a →
        Memory.get? (s.writeCells .outBuf off bs).mem a = Memory.get? s.mem a := fun a ha =>
      State.get?_writeCells_of_outside (by simp only [Buffer.base]; omega)
    refine ⟨rfl, rfl, rfl, rfl, rfl, fun a ha => hout a (by omega), fun a ha => hout a (by omega),
      fun _ a ha => hout a (by omega), fun hrc4x hdecode hencode => ?_, fun _ => rfl⟩
    cases hw with
    | rc4x src off len => exact absurd rfl (hrc4x src off len)
    | decode => exact absurd rfl hdecode
    | encode rev => exact absurd rfl (hencode rev)

/-! ## Host reads of ⊥ and of CKSUM (10_state.md R38, 20_memory.md R53) -/

/-- A region with a ⊥ cell does not read as bytes. -/
theorem Memory.getBytes_of_undef {m : Memory} {a n k : Nat} (hk : k < n) (hu : Memory.get? m (a + k) = none) :
    ∃ e, Memory.getBytes m a n = .error e := by
  cases hg : Memory.getBytes m a n with
  | error e => exact ⟨e, rfl⟩
  | ok bs =>
    obtain ⟨hl, hcells⟩ := Memory.getBytes_eq_ok.1 hg
    have hnone : bs[k]? = none := (hcells k hk).symm.trans hu
    rw [List.getElem?_eq_none_iff] at hnone
    omega

theorem memRead_of_undef {cfg : Config} {s : State} {off n k : Nat} (hidle : s.busy = false)
    (ha : admitted .read off n = true) (hoff : off < 0x214) (hk : k < n) (hu : Memory.get? s.mem (off + k) = none) :
    memRead cfg s off n = .error (.undefReadHost off) := by
  obtain ⟨e, he⟩ := Memory.getBytes_of_undef hk hu
  simp [memRead, accessFault_idle hidle, ha, inBuffers, hoff, he]

theorem accessFault_cksum {cfg : Config} {s : State} (hidle : s.busy = false) :
    accessFault cfg s .read offCksum 4 = none := by
  rw [accessFault_idle hidle, if_pos (by decide)]

theorem memRead_cksum_of_some {cfg : Config} {s : State} {v : Word} (hidle : s.busy = false)
    (hv : s.cksum = some v) : memRead cfg s offCksum 4 = .ok v := by
  simp only [memRead, accessFault_cksum hidle, hv]
  rfl

theorem memRead_cksum_of_none {cfg : Config} {s : State} (hidle : s.busy = false) (hv : s.cksum = none) :
    memRead cfg s offCksum 4 = .error (.undefReadHost offCksum) := by
  simp only [memRead, accessFault_cksum hidle, hv]
  rfl

/-- A due host read that is answered. -/
theorem step_read_of_ok {s : State} {off n : Nat} {rest : List HostAction} {v : Word}
    (h : s.hostDue (.read off n) rest) (hr : memRead Config.platform s off n = .ok v) :
    step s = .next ((s.recordRead off n v).setQueue rest) := by
  rw [step_of_hostDue h]
  simp only [hostStep, hr]

/-- A due host read that faults. -/
theorem step_read_of_error {s : State} {off n : Nat} {rest : List HostAction} {f : Fault}
    (h : s.hostDue (.read off n) rest) (hr : memRead Config.platform s off n = .error f) :
    step s = .next (s.raise f) := by
  rw [step_of_hostDue h]
  simp only [hostStep, hr]

/-- Settles O19: the read of a region with a ⊥ cell, and of CKSUM while it is ⊥, is an UNDEF_READ. -/
theorem hostReadOfUndefinedCellFaults : Obligations.HostReadOfUndefinedCellFaults :=
  ⟨fun _ _ _ _ _ hdue hidle ha hoff hk hu => step_read_of_error hdue (memRead_of_undef hidle ha hoff hk hu),
    fun _ _ hdue hidle hv => step_read_of_error hdue (memRead_cksum_of_none hidle hv)⟩

/-- Settles O20: the read of CKSUM passes the gate and answers the register. -/
theorem hostReadsCksum : Obligations.HostReadsCksum :=
  fun _ _ _ hdue hidle hv => step_read_of_ok hdue (memRead_cksum_of_some hidle hv)

/-! ## Commands that read ⊥ (10_state.md R38) -/

theorem exists_revCode_of_revOk {rev : BitVec 4} (h : Instr.revOk rev = true) : ∃ r, rev = revCode r := by
  cases hv : revOfCode rev with
  | none =>
    have : 4 ≤ rev.toNat := revOfCode_eq_none.1 hv
    simp only [Instr.revOk, decide_eq_true_eq] at h
    omega
  | some r => exact ⟨r, revOfCode_eq_some.1 hv⟩

theorem rangeOk_iff {off len : BitVec 8} : Instr.rangeOk off len = true ↔ off.toNat + len.toNat ≤ 256 := by
  simp [Instr.rangeOk]

theorem alignOk_iff {off len : BitVec 8} :
    Instr.alignOk off len = true ↔ off.toNat % 4 = 0 ∧ len.toNat % 4 = 0 := by
  simp [Instr.alignOk]

theorem exec_cksum_of_firstUndef {src : Src} {off len : BitVec 8} {s : State} {k : Nat}
    (hwf : (Instr.cksum src off len).wellFormed = true) (h : s.firstUndef (srcBuffer src) off.toNat len.toNat k) :
    exec (.cksum src off len) s = .next (s.raise (.undefReadBlock (srcBuffer src) k)) := by
  simp only [Instr.wellFormed, Bool.and_eq_true, alignOk_iff, rangeOk_iff] at hwf
  obtain ⟨⟨hoff, hlen⟩, hrange⟩ := hwf
  rw [execCksum_eq, cksumResult_wellFormed hoff hlen hrange, State.withCells_of_firstUndef h]

theorem exec_khash_of_firstUndef {rev : BitVec 4} {src : Src} {off len : BitVec 8} {s : State} {k : Nat}
    (hwf : (Instr.khash rev src off len).wellFormed = true)
    (h : s.firstUndef (srcBuffer src) off.toNat len.toNat k) :
    exec (.khash rev src off len) s = .next (s.raise (.undefReadBlock (srcBuffer src) k)) := by
  simp only [Instr.wellFormed, Bool.and_eq_true, rangeOk_iff] at hwf
  obtain ⟨hrev, hrange⟩ := hwf
  obtain ⟨r, rfl⟩ := exists_revCode_of_revOk hrev
  rw [execKhash_eq, khashResult_wellFormed hrange, State.withCells_of_firstUndef h]

theorem exec_rc4x_of_firstUndef_digest {src : Src} {off len : BitVec 8} {s : State} {k : Nat}
    (hwf : (Instr.rc4x src off len).wellFormed = true) (h : s.firstUndef .digest 0 20 k) :
    exec (.rc4x src off len) s = .next (s.raise (.undefReadBlock .digest k)) := by
  rw [execRc4x_eq, rc4xResult_wellFormed (rangeOk_iff.1 hwf), State.withCells_of_firstUndef h]

theorem exec_rc4x_of_firstUndef_source {src : Src} {off len : BitVec 8} {s : State} {k : Nat}
    (hwf : (Instr.rc4x src off len).wellFormed = true) (hkey : ∀ j < 20, s.cell? .digest j ≠ none)
    (h : s.firstUndef (srcBuffer src) off.toNat len.toNat k) :
    exec (.rc4x src off len) s = .next (s.raise (.undefReadBlock (srcBuffer src) k)) := by
  obtain ⟨key, hl, hkey⟩ := State.exists_holds (off := 0) (n := 20) fun j _ hj => hkey j (by omega)
  rw [execRc4x_eq, rc4xResult_wellFormed (rangeOk_iff.1 hwf), State.withCells_of_holds hl hkey,
    State.withCells_of_firstUndef h]

theorem exec_decode_of_firstUndef {s : State} {k : Nat} (h : s.firstUndef .inBuf 0 256 k) :
    exec .decode s = .next (s.raise (.undefReadBlock .inBuf k)) := by
  rw [execDecode_eq, decodeResult, State.withCells_of_firstUndef h]

/-- ENCODE reads its three regions in rising order, so the first ⊥ cell of the three is the one it names. -/
theorem exec_encode_of_undef {rev : BitVec 4} {s : State} {k : Nat} (hwf : (Instr.encode rev).wellFormed = true)
    (hk : 0x14 ≤ k ∧ k < 0x30 ∨ 0x34 ≤ k ∧ k < 0x60 ∨ 0x64 ≤ k ∧ k < 0x100) (hu : s.cell? .inBuf k = none)
    (hbefore : ∀ j < k, (0x14 ≤ j ∧ j < 0x30 ∨ 0x34 ≤ j ∧ j < 0x60 ∨ 0x64 ≤ j) → s.cell? .inBuf j ≠ none) :
    exec (.encode rev) s = .next (s.raise (.undefReadBlock .inBuf k)) := by
  obtain ⟨r, rfl⟩ := exists_revCode_of_revOk hwf
  rw [execEncode_eq, encodeResult_supported]
  rcases hk with hk | hk
  · have hfirst : s.firstUndef .inBuf 0x14 28 k :=
      ⟨by omega, by omega, hu, fun j hj hlo => hbefore j hj (by omega)⟩
    rw [State.withCells_of_firstUndef hfirst]
  obtain ⟨block, hbl, hbh⟩ := State.exists_holds (s := s) (b := .inBuf) (off := 0x14) (n := 28)
    fun j hlo hhi => hbefore j (by omega) (by omega)
  rw [State.withCells_of_holds hbl hbh]
  rcases hk with hk | hk
  · have hfirst : s.firstUndef .inBuf 0x34 44 k :=
      ⟨by omega, by omega, hu, fun j hj hlo => hbefore j hj (by omega)⟩
    rw [State.withCells_of_firstUndef hfirst]
  obtain ⟨factory, hfl, hfh⟩ := State.exists_holds (s := s) (b := .inBuf) (off := 0x34) (n := 44)
    fun j hlo hhi => hbefore j (by omega) (by omega)
  have hfirst : s.firstUndef .inBuf 0x64 156 k :=
    ⟨by omega, by omega, hu, fun j hj hlo => hbefore j hj (by omega)⟩
  rw [State.withCells_of_holds hfl hfh, State.withCells_of_firstUndef hfirst]

/-- Settles O35: each command's read, in its order, stops at the first ⊥ cell. -/
theorem commandReadingUndefinedCellFaults : Obligations.CommandReadingUndefinedCellFaults :=
  ⟨fun _ _ _ _ _ => exec_cksum_of_firstUndef, fun _ _ _ _ _ _ => exec_khash_of_firstUndef,
    fun _ _ _ _ _ => exec_rc4x_of_firstUndef_digest, fun _ _ _ _ _ => exec_rc4x_of_firstUndef_source,
    fun _ _ => exec_decode_of_firstUndef, fun _ _ _ => exec_encode_of_undef⟩

end Sys2Proof.Machine
end

section
/-! Proofs about the host window (20_memory.md part A): which accesses it admits, what a read and a write do, and the
accesses it refuses. -/

namespace Sys2Proof.Machine

/-! ## The map (R50 to R52, R55) -/

/-- Settles O13: BASE is subtracted inside the window's bounds only. -/
theorem windowIsDecodedAtBase : Obligations.WindowIsDecodedAtBase := by
  intro cfg addr off
  unfold offsetOfAddress
  split
  · rw [Option.some.injEq]
    omega
  · simp only [reduceCtorEq, false_iff]
    omega

theorem WindowRow.admits_iff {r : WindowRow} {kind : AccessKind} {off n : Nat} :
    r.admits kind off n = true ↔ r.start ≤ off ∧ off + n ≤ r.start + r.size ∧ n ∈ r.widths ∧
      (kind = .read → r.readable = true) ∧ (kind = .write → r.writable = true) := by
  cases kind <;> simp [WindowRow.admits, and_assoc]

theorem admitted_iff {kind : AccessKind} {off n : Nat} :
    admitted kind off n = true ↔
      (n = 1 ∨ n = 2 ∨ n = 4) ∧ off % n = 0 ∧ ∃ r ∈ windowMap, r.admits kind off n = true := by
  simp [admitted, and_assoc]

/-- Settles O14: the rows of the map, one by one, for a read and for a write. -/
theorem admittedAccessesAreTheWindowMap : Obligations.AdmittedAccessesAreTheWindowMap := by
  intro kind off n
  rw [admitted_iff]
  refine and_congr_right fun hn => and_congr_right fun _ => ?_
  simp only [windowMap, List.exists_mem_cons_iff, WindowRow.admits_iff, offCksum, offStatus, offCmd]
  cases kind with
  | read => simp; omega
  | write => simp; omega

/-- A narrower access, aligned at its own width, inside a word of a buffer (R54). -/
theorem admitted_inside_word {kind : AccessKind} {off k n : Nat} (hoff : off % 4 = 0) (hlt : off < 0x214)
    (hn : n = 1 ∨ n = 2 ∨ n = 4) (hk : k % n = 0) (hfit : k + n ≤ 4) : admitted kind (off + k) n = true := by
  refine (admittedAccessesAreTheWindowMap kind (off + k) n).2 ⟨hn, ?_, by omega⟩
  rcases hn with rfl | rfl | rfl <;> omega

/-! ## Accesses the gate refuses (R52, R55, R56) -/

theorem memRead_of_accessFault {cfg : Config} {s : State} {off n : Nat} {f : Fault}
    (h : accessFault cfg s .read off n = some f) : memRead cfg s off n = .error f := by
  simp only [memRead, h]

theorem memWrite_of_accessFault {cfg : Config} {s : State} {off : Nat} {bytes : List Byte} {f : Fault}
    (h : accessFault cfg s .write off bytes.length = some f) : memWrite cfg s off bytes = .error f := by
  simp only [memWrite, h]

/-- A due host write that is performed. -/
theorem step_write_of_ok {s t : State} {off : Nat} {bytes : List Byte} {rest : List HostAction}
    (h : s.hostDue (.write off bytes) rest) (hw : memWrite Config.platform s off bytes = .ok t) :
    step s = .next (t.setQueue rest) := by
  rw [step_of_hostDue h]
  simp only [hostStep, hw]

/-- A due host write that faults. -/
theorem step_write_of_error {s : State} {off : Nat} {bytes : List Byte} {rest : List HostAction} {f : Fault}
    (h : s.hostDue (.write off bytes) rest) (hw : memWrite Config.platform s off bytes = .error f) :
    step s = .next (s.raise f) := by
  rw [step_of_hostDue h]
  simp only [hostStep, hw]

theorem accessFault_of_not_admitted {cfg : Config} {s : State} {kind : AccessKind} {off n : Nat}
    (hidle : s.busy = false) (ha : admitted kind off n = false) :
    accessFault cfg s kind off n = some (.badAccess off n kind) := by
  rw [accessFault_idle hidle, ha]
  rfl

/-- Settles O15: the idle gate refuses every access outside the map. -/
theorem inadmissibleAccessIsBadAccess : Obligations.InadmissibleAccessIsBadAccess :=
  ⟨fun _ _ _ _ hdue hidle ha =>
      step_read_of_error hdue (memRead_of_accessFault (accessFault_of_not_admitted hidle ha)),
    fun _ _ _ _ hdue hidle ha =>
      step_write_of_error hdue (memWrite_of_accessFault (accessFault_of_not_admitted hidle ha))⟩

/-- Settles O16: the busy gate's fault is what the access records. -/
theorem accessWhileBusyIsHazard : Obligations.AccessWhileBusyIsHazard := by
  constructor
  · intro s off n rest hdue hbusy hne
    obtain ⟨f, hf, hkind⟩ := accessFault_busy (cfg := Config.platform) (kind := .read) hbusy
      fun ⟨_, hoff, hn⟩ => hne ⟨hoff, hn⟩
    exact ⟨f, step_read_of_error hdue (memRead_of_accessFault hf), hkind⟩
  · intro s off bytes rest hdue hbusy
    obtain ⟨f, hf, hkind⟩ := accessFault_busy (cfg := Config.platform) (kind := .write) (off := off)
      (n := bytes.length) hbusy (by simp)
    exact ⟨f, step_write_of_error hdue (memWrite_of_accessFault hf), hkind⟩

/-! ## Reads (R53, R54, R57) -/

/-- Settles O17: STATUS passes the gate at any time. -/
theorem statusReadIsAlwaysServed : Obligations.StatusReadIsAlwaysServed :=
  fun s _ hdue => step_read_of_ok hdue (memRead_status Config.platform s)

/-- An admitted read of a buffer region that holds `bytes`. -/
theorem memRead_of_bytes {cfg : Config} {s : State} {off : Nat} {bytes : List Byte} (hidle : s.busy = false)
    (ha : admitted .read off bytes.length = true) (hoff : off < 0x214)
    (hcells : ∀ k < bytes.length, Memory.get? s.mem (off + k) = bytes[k]?) :
    memRead cfg s off bytes.length = .ok (leValue bytes) := by
  have hget : Memory.getBytes s.mem off bytes.length = .ok bytes := Memory.getBytes_eq_ok.2 ⟨rfl, hcells⟩
  simp [memRead, accessFault_idle hidle, ha, inBuffers, hoff, hget]

@[simp] theorem leValue_nil : leValue [] = 0 := rfl

/-- The little-endian value is the number whose digits to base 256 are the bytes (00_scope.md R12). -/
theorem leValue_toNat_eq_ofDigits {bs : List Byte} (h : bs.length ≤ 4) :
    (leValue bs).toNat = Nat.ofDigits 256 (bs.map BitVec.toNat) := by
  induction bs with
  | nil => rfl
  | cons b bs ih =>
    rw [List.length_cons] at h
    rw [leValue_cons_toNat b bs (by omega), ih (by omega), List.map_cons, Nat.ofDigits_cons]

theorem leValue_toNat_eq_sum {bs : List Byte} (h : bs.length ≤ 4) :
    (leValue bs).toNat = (bs.mapIdx fun k b => b.toNat * 256 ^ k).sum := by
  rw [leValue_toNat_eq_ofDigits h, Nat.ofDigits_eq_sum_mapIdx]
  congr 1
  exact List.ext_getElem (by simp) (by simp)

theorem width_le_of_admitted {kind : AccessKind} {off n : Nat} (h : admitted kind off n = true) : n ≤ 4 := by
  obtain ⟨hn, -⟩ := admitted_iff.1 h
  omega

/-- Settles O18: the cells' little-endian value is the sum of their digits. -/
theorem hostReadReturnsLittleEndianCells : Obligations.HostReadReturnsLittleEndianCells :=
  fun _ _ _ _ hdue hidle ha hoff hcells =>
    ⟨_, leValue_toNat_eq_sum (width_le_of_admitted ha), step_read_of_ok hdue (memRead_of_bytes hidle ha hoff hcells)⟩

/-- Among the effects of a host action, a poll and a read have only the fault and the value read. -/
theorem HostEnd.of_read {a : HostAction} {s t : State} (he : HostEnd s a t)
    (ha : a = .poll ∨ ∃ off n, a = .read off n) :
    (∃ f, t = s.raise f) ∨ ∃ off n v q, t = (s.recordRead off n v).setQueue q := by
  cases he with
  | raised _ f => exact .inl ⟨f, rfl⟩
  | served _ off n v q => exact .inr ⟨off, n, v, q, rfl⟩
  | stored off bytes q hfit => simp at ha
  | launched bytes q hidle hl => simp at ha
  | reset q => simp at ha

/-- Settles O24: a read either faults or records its value. -/
theorem hostReadsHaveNoSideEffect : Obligations.HostReadsHaveNoSideEffect := by
  intro s t a rest hdue ha hstep
  have ht : hostStep Config.platform a rest s = t :=
    Host.Outcome.next.inj ((step_of_hostDue hdue).symm.trans hstep)
  obtain ⟨hfault, -, -⟩ := hdue
  rcases (ht ▸ hostStep_cases Config.platform a rest s).of_read ha with ⟨f, rfl⟩ | ⟨off, n, v, q, rfl⟩
  · exact .inl ⟨Option.some_ne_none f, rfl⟩
  · exact .inr ⟨hfault, ⟨_, rfl⟩, rfl⟩

/-! ## Writes (R53, R54, R57) -/

/-- An admitted write into a buffer. -/
theorem memWrite_of_buffer {cfg : Config} {s : State} {off : Nat} {bytes : List Byte} (hidle : s.busy = false)
    (ha : admitted .write off bytes.length = true) (hoff : off < 0x214) :
    memWrite cfg s off bytes = .ok { s with mem := Memory.setBytes s.mem off bytes } := by
  simp [memWrite, accessFault_idle hidle, ha, inBuffers, hoff]

/-- Settles O21: the cells after the write are those of `Memory.setBytes`. -/
theorem hostWriteStoresItsBytes : Obligations.HostWriteStoresItsBytes :=
  fun s off bytes _ hdue hidle ha hoff =>
    ⟨_, step_write_of_ok hdue (memWrite_of_buffer hidle ha hoff), rfl,
      fun a => Memory.get?_setBytes s.mem off a bytes⟩

/-- A read inside the region just written returns the part of it that the read covers. -/
theorem memRead_of_setBytes {cfg : Config} {s : State} {m : Memory} {off k n : Nat} {bytes : List Byte}
    (hidle : s.busy = false) (hmem : s.mem = Memory.setBytes m off bytes) (ha : admitted .read (off + k) n = true)
    (hoff : off + k < 0x214) (hfit : k + n ≤ bytes.length) :
    memRead cfg s (off + k) n = .ok (leValue (slice bytes k (k + n))) := by
  have hl : (slice bytes k (k + n)).length = n := by rw [slice_length]; omega
  have h := memRead_of_bytes (cfg := cfg) (bytes := slice bytes k (k + n)) hidle (by rwa [hl]) hoff fun j hj => by
    rw [hl] at hj
    rw [hmem, Memory.get?_setBytes, if_pos (by omega), slice_getElem?, if_pos (by omega)]
    congr 1
    omega
  rwa [hl] at h

/-- One byte of a word, as a value. -/
theorem leValue_byte (v : Word) (i : Nat) : leValue [v.extractLsb' i 8] = v >>> i &&& 0xFF := by
  apply BitVec.eq_of_toNat_eq
  have hmask : v.toNat >>> i &&& 255 = v.toNat >>> i % 256 := Nat.and_two_pow_sub_one_eq_mod _ 8
  simp [leValue_cons_toNat, hmask]

/-- Two bytes of a word that stand side by side, as a value. -/
theorem leValue_halfWord (v : Word) (i : Nat) :
    leValue [v.extractLsb' i 8, v.extractLsb' (i + 8) 8] = v >>> i &&& 0xFFFF := by
  apply BitVec.eq_of_toNat_eq
  have hmask : v.toNat >>> i &&& 65535 = v.toNat >>> i % 65536 := Nat.and_two_pow_sub_one_eq_mod _ 16
  have hhigh : v.toNat >>> (i + 8) = v.toNat >>> i / 256 := by rw [Nat.shiftRight_add, Nat.shiftRight_eq_div_pow _ 8]
  simp [leValue_cons_toNat, hmask, hhigh]
  omega

theorem leValue_slice_byte (v : Word) {k : Nat} (hk : k < 4) :
    leValue (slice (leBytes32 v) k (k + 1)) = v >>> (8 * k) &&& 0xFF := by
  rw [← leValue_byte]
  interval_cases k <;> rfl

theorem leValue_slice_halfWord (v : Word) {k : Nat} (hk : k < 2) :
    leValue (slice (leBytes32 v) (2 * k) (2 * k + 2)) = v >>> (16 * k) &&& 0xFFFF := by
  rw [← leValue_halfWord]
  interval_cases k <;> rfl

/-- Settles O22: each narrower read covers one half or one byte of the word just stored. -/
theorem narrowReadsAgreeWithTheWordWritten : Obligations.NarrowReadsAgreeWithTheWordWritten := by
  intro s off v rest hdue hidle halign hoff
  have hword : admitted .write off 4 = true :=
    admitted_inside_word (k := 0) halign hoff (by omega) rfl (by omega)
  have hw : memWrite Config.platform s off (leBytes32 v) = _ := memWrite_of_buffer hidle hword hoff
  refine ⟨_, step_write_of_ok hdue hw, fun cfg => ⟨fun k hk => ?_, fun k hk => ?_⟩⟩
  · have ha : admitted .read (off + 2 * k) 2 = true :=
      admitted_inside_word halign hoff (by omega) (by omega) (by omega)
    rw [← leValue_slice_halfWord v hk]
    exact memRead_of_setBytes hidle rfl ha (by omega) (by rw [leBytes32_length]; omega)
  · have ha : admitted .read (off + k) 1 = true :=
      admitted_inside_word halign hoff (by omega) (by omega) (by omega)
    rw [← leValue_slice_byte v hk]
    exact memRead_of_setBytes hidle rfl ha (by omega) (by rw [leBytes32_length]; omega)

/-- Settles O23: the write to CMD passes the gate and launches the word its bytes make up. -/
theorem cmdWriteLaunches : Obligations.CmdWriteLaunches := by
  intro s v rest hdue hidle
  have hw : memWrite Config.platform s 0x228 (leBytes32 v) = .ok (s.launch v) := by
    rw [memWrite, accessFault_idle hidle, leBytes32_length, if_pos (by decide), leValue_leBytes32]
    rfl
  exact ⟨Config.latency s.draws, step_write_of_ok hdue hw⟩

end Sys2Proof.Machine
end

section
/-! Proofs about the encoding of commands (30_encoding.md): the decoder and the encoder agree, what the mnemonics
assemble to, and what `run <command>` does. -/

namespace Sys2Proof.Machine

/-! ## Decoding and encoding (R81, R84, R85, R90) -/

/-- Settles O1: each command's packed fields pass its own opcode's checks. -/
theorem decodeOfEncodeIsIdentity : Obligations.DecodeOfEncodeIsIdentity := by
  intro i
  cases i with
  | nop => decide
  | cksum src off len => simp [encodeWord, decodeWord]
  | khash rev src off len => simp [encodeWord, decodeWord]
  | rc4x src off len => simp [encodeWord, decodeWord]
  | decode => decide
  | encode rev => simp [encodeWord, decodeWord]

/-- A word that decodes has RSV = 0, and the command it stands for is encoded with the word's own fields. -/
theorem encodeWord_of_decodeWord {v : Word} {i : Instr} (h : decodeWord v = .ok i) :
    fieldRsv v = 0 ∧
      encodeWord i = packFields (fieldLen v) (fieldOff v) (fieldSrc v) (fieldRev v) (fieldOp v) := by
  unfold decodeWord at h
  split_ifs at h with hbig hrsv hnop hunused hcksum hrev hkhash hrc4x hrev hdecode hunused hunused <;> cases h <;>
    refine ⟨not_not.1 hrsv, ?_⟩
  · simp [encodeWord, hnop, hunused]
  · simp [encodeWord, hcksum, hrev]
  · simp [encodeWord, hkhash]
  · simp [encodeWord, hrc4x, hrev]
  · simp [encodeWord, hdecode, hunused]
  · have hencode : fieldOp v = 5 := by bv_omega
    simp [encodeWord, hencode, hunused]

/-- Settles O2: the word is packed from the fields that its command is encoded with. -/
theorem encodeOfDecodeIsIdentity : Obligations.EncodeOfDecodeIsIdentity := by
  intro v i h
  obtain ⟨hrsv, hword⟩ := encodeWord_of_decodeWord h
  rw [hword, packFields_fields hrsv]

/-- Settles O3, on the words of R90. -/
theorem workedEncodingsDecode : Obligations.WorkedEncodingsDecode := by
  unfold Obligations.WorkedEncodingsDecode
  decide

/-! ## The assembler (R88) -/

theorem ite_of_eq_ite {α : Type} {p : Prop} [Decidable p] {a x y : α} (h : a = if p then x else y) :
    if p then a = x else a = y := by
  subst h
  split <;> rfl

theorem asmKhash_eq (rev : Nat) (src : Src) (off len : Nat) :
    asmKhash rev src off len =
      if rev < 16 ∧ off < 256 ∧ len < 256 then
        some (.khash (BitVec.ofNat 4 rev) src (BitVec.ofNat 8 off) (BitVec.ofNat 8 len))
      else none := by
  by_cases hr : rev < 16 <;> by_cases ho : off < 256 <;> by_cases hl : len < 256 <;>
    simp [asmKhash, asmRev, asmByte, hr, ho, hl]

theorem asmCksum_eq (src : Src) (off len : Nat) :
    asmCksum src off len =
      if off < 256 ∧ len < 256 then some (.cksum src (BitVec.ofNat 8 off) (BitVec.ofNat 8 len)) else none := by
  by_cases ho : off < 256 <;> by_cases hl : len < 256 <;> simp [asmCksum, asmByte, ho, hl]

theorem asmRc4x_eq (src : Src) (off len : Nat) :
    asmRc4x src off len =
      if off < 256 ∧ len < 256 then some (.rc4x src (BitVec.ofNat 8 off) (BitVec.ofNat 8 len)) else none := by
  by_cases ho : off < 256 <;> by_cases hl : len < 256 <;> simp [asmRc4x, asmByte, ho, hl]

theorem asmEncode_eq (rev : Nat) :
    asmEncode rev = if rev < 16 then some (.encode (BitVec.ofNat 4 rev)) else none := by
  by_cases hr : rev < 16 <;> simp [asmEncode, asmRev, hr]

/-- Settles O4: the words are packed fields, and each mnemonic takes operands in their ranges and no others. -/
theorem assemblerWordsAndRanges : Obligations.AssemblerWordsAndRanges := by
  refine ⟨fun src off len => ?_, fun rev src off len => ?_, fun src off len => ?_, fun rev => ?_,
    fun rev src off len => ite_of_eq_ite (asmKhash_eq rev src off len),
    fun src off len => ite_of_eq_ite (asmCksum_eq src off len),
    fun src off len => ite_of_eq_ite (asmRc4x_eq src off len),
    fun rev => ite_of_eq_ite (asmEncode_eq rev)⟩ <;>
  simp [encodeWord, packFields_toNat]

/-! ## The due block step (R87) -/

/-- Settles O7: a due step is the block's step, which executes the decoded command. -/
theorem stepRunsTheDecodedCommand : Obligations.StepRunsTheDecodedCommand :=
  fun _ _ _ hdue hv hi => (step_of_blockDue hdue).trans (blockStep_of_decode hv hi)

/-! ## Commands neither read nor write the host's fields (log 1, log 2) -/

/-- The block's state of `s` with the host's fields of `h`. -/
def State.withHostOf (s h : State) : State :=
  { s with hostQueue := h.hostQueue, hostReads := h.hostReads, delay := h.delay, draws := h.draws }

theorem State.checked_withHostOf {s h k k' : State} {cs : List (Option Err)} (hk : k' = k.withHostOf h) :
    (s.withHostOf h).checked cs k' = (s.checked cs k).withHostOf h := by
  unfold State.checked
  split
  · rfl
  · exact hk

theorem State.withCells_withHostOf {s h : State} {b : Buffer} {off n : Nat} {k k' : List Byte → State}
    (hk : ∀ bs, k' bs = (k bs).withHostOf h) :
    (s.withHostOf h).withCells b off n k' = (s.withCells b off n k).withHostOf h := by
  have hread : (s.withHostOf h).readCells b off n = s.readCells b off n := rfl
  unfold State.withCells
  rw [hread]
  split
  · exact hk _
  · rfl

theorem cksumResult_withHostOf (src : Src) (off len : BitVec 8) (s h : State) :
    cksumResult src off len (s.withHostOf h) = (cksumResult src off len s).withHostOf h :=
  State.checked_withHostOf (State.withCells_withHostOf fun _ => rfl)

theorem khashResult_withHostOf (cfg : Config) (rev : BitVec 4) (src : Src) (off len : BitVec 8) (s h : State) :
    khashResult cfg rev src off len (s.withHostOf h) = (khashResult cfg rev src off len s).withHostOf h := by
  unfold khashResult
  split
  · rfl
  · exact State.checked_withHostOf (State.withCells_withHostOf fun _ => rfl)

theorem rc4xResult_withHostOf (src : Src) (off len : BitVec 8) (s h : State) :
    rc4xResult src off len (s.withHostOf h) = (rc4xResult src off len s).withHostOf h :=
  State.checked_withHostOf <| State.withCells_withHostOf fun _ => State.withCells_withHostOf fun _ => rfl

theorem decodeResult_withHostOf (cfg : Config) (s h : State) :
    decodeResult cfg (s.withHostOf h) = (decodeResult cfg s).withHostOf h := by
  refine State.withCells_withHostOf fun raw => ?_
  cases resolve cfg raw <;> rfl

theorem encodeResult_withHostOf (cfg : Config) (rev : BitVec 4) (s h : State) :
    encodeResult cfg rev (s.withHostOf h) = (encodeResult cfg rev s).withHostOf h := by
  unfold encodeResult
  split
  · rfl
  · exact State.withCells_withHostOf fun _ => State.withCells_withHostOf fun _ =>
      State.withCells_withHostOf fun _ => rfl

/-- A command's meaning does not depend on the host's fields and leaves them as they are. -/
theorem exec_withHostOf {i : Instr} {s u : State} (he : exec i s = .next u) (h : State) :
    exec i (s.withHostOf h) = .next (u.withHostOf h) := by
  cases i with
  | nop => cases he; rfl
  | cksum src off len => cases he; exact congrArg _ (cksumResult_withHostOf src off len s h)
  | khash rev src off len => cases he; exact congrArg _ (khashResult_withHostOf Config.platform rev src off len s h)
  | rc4x src off len => cases he; exact congrArg _ (rc4xResult_withHostOf src off len s h)
  | decode => cases he; exact congrArg _ (decodeResult_withHostOf Config.platform s h)
  | encode rev => cases he; exact congrArg _ (encodeResult_withHostOf Config.platform rev s h)

/-- Every command's meaning answers a next state. -/
theorem exists_exec (i : Instr) (s : State) : ∃ u, exec i s = .next u := by
  cases i <;> exact ⟨_, rfl⟩

/-- A command that does not fault clears BUSY. -/
theorem busy_of_exec {i : Instr} {s u : State} (he : exec i s = .next u) (hf : u.fault = none) : u.busy = false := by
  rw [State.busy_def]
  rcases exec_cases he with ⟨e, -, rfl⟩ | ⟨b, k, rfl⟩ | hr
  · exact statusBusy_doneStatus ..
  · cases hf
  · obtain ⟨rrev, hs⟩ := hr.status_eq
    rw [hs]
    exact statusBusy_doneStatus ..

/-! ## `run <command>` (R89, R255, R257) -/

/-- A poll of a busy machine reads STATUS until the block has no host turn left before it. -/
theorem run_poll_delay {s : State} {rest : List HostAction} {d : Nat} (hf : s.fault = none) (hb : s.busy = true)
    (hq : s.hostQueue = .poll :: rest) (hd : s.delay = d) :
    Host.Core.run Sys2Proof.core d s =
      .next { s with delay := 0, hostReads := List.replicate d ⟨0x224, 4, s.status⟩ ++ s.hostReads } := by
  induction d generalizing s with
  | zero =>
    cases s
    cases hd
    rfl
  | succ d ih =>
    have hfirst := run_one (step_poll_busy ⟨hf, hq, .inr (by omega)⟩ hb)
    have hrest := ih (s := s.recordRead 0x224 4 s.status) hf hb hq (by simp [hd])
    rw [Nat.add_comm d 1, run_add hfirst, hrest, Nat.add_comm 1 d, List.replicate_succ']
    simp [State.recordRead]

/-- The CMD write and the polls the latency leaves bring an idle machine to the block's step, with the word latched and
nothing else of the block changed. -/
theorem exists_run_blockDue {s : State} {v : Word} {rest : List HostAction} (hf : s.fault = none)
    (hidle : s.busy = false) (hq : s.hostQueue = hostRunWord v ++ rest) :
    ∃ n t, Host.Core.run Sys2Proof.core n s = .next t ∧ t.blockDue ∧ t.hostQueue = .poll :: rest ∧
      t = State.withHostOf { s with pending := some v, status := 0x80000F00 } t := by
  obtain ⟨d, hwrite⟩ := cmdWriteLaunches s v (.poll :: rest) ⟨hf, hq, .inl hidle⟩ hidle
  have hbusy : statusBusy 0x80000F00 = true := by decide
  exact ⟨_, _, (run_add (run_one hwrite)).trans (run_poll_delay hf hbusy rfl rfl), ⟨hf, hbusy, .inr rfl⟩, rfl, rfl⟩

/-- Settles O12: once the block is due it executes the command, whatever the host's fields are, and the poll after it
reads BUSY = 0. -/
theorem runPseudoInstructionCompletes : Obligations.RunPseudoInstructionCompletes := by
  intro i s rest hf hidle hq
  obtain ⟨u, he⟩ := exists_exec i { s with pending := some (encodeWord i), status := 0x80000F00 }
  refine ⟨u, he, fun hu => ?_⟩
  obtain ⟨n, t, hrun, hdue, hpoll, ht⟩ := exists_run_blockDue hf hidle hq
  have hpending : t.pending = some (encodeWord i) := by rw [ht]; rfl
  have hcommand : step t = .next (u.withHostOf t) := by
    rw [stepRunsTheDecodedCommand t _ i hdue hpending (decodeOfEncodeIsIdentity i), ← exec_withHostOf he t, ← ht]
  have hub : u.busy = false := busy_of_exec he hu
  have hlast := step_poll_idle (s := u.withHostOf t) ⟨hu, hpoll, .inl hub⟩ hub
  have hend := (run_add hrun).trans <| (run_add (run_one hcommand)).trans (run_one hlast)
  exact ⟨_, _, hend, rfl, rfl, rfl, hu, hub, rfl, rfl⟩

end Sys2Proof.Machine
end

section
/-! Proofs about the checksum engine (40_checksum.md): what the accumulator holds, what the checksum of a region is, what
CKSUM does, and the checksums that ENCODE stores. -/

namespace Sys2Proof.Machine

/-! ## The accumulator (R110, R111) -/

/-- The accumulator's halves together, as one number (R111). -/
def Accumulator.value (acc : Accumulator) : Nat := acc.hi.toNat * 2 ^ 32 + acc.lo.toNat

theorem Accumulator.value_zero : Accumulator.value ⟨0, 0⟩ = 0 := rfl

theorem Accumulator.value_lt (acc : Accumulator) : acc.value < 2 ^ 64 := by
  have hhi := acc.hi.isLt
  have hlo := acc.lo.isLt
  unfold Accumulator.value
  omega

/-- The halves side by side are the number they stand for. -/
theorem Accumulator.joined_toNat (acc : Accumulator) :
    ((acc.hi.setWidth 64 <<< 32) ||| acc.lo.setWidth 64 : DWord).toNat = acc.value := by
  have hhi := acc.hi.isLt
  have hlo := acc.lo.isLt
  rw [BitVec.toNat_or, BitVec.toNat_shiftLeft, BitVec.toNat_setWidth, BitVec.toNat_setWidth, Nat.shiftLeft_eq,
    Nat.mod_eq_of_lt (a := acc.lo.toNat) (by omega), Nat.mod_eq_of_lt (a := acc.hi.toNat) (by omega),
    Nat.mod_eq_of_lt (by omega), ← Nat.shiftLeft_eq, ← Nat.shiftLeft_add_eq_or_of_lt hlo, Nat.shiftLeft_eq]
  rfl

/-- The halves of a 64-bit sum together are that sum. -/
theorem Accumulator.value_halves (s : DWord) :
    Accumulator.value ⟨s.extractLsb' 32 32, s.extractLsb' 0 32⟩ = s.toNat := by
  have hs := s.isLt
  simp only [Accumulator.value, BitVec.extractLsb'_toNat, Nat.shiftRight_eq_div_pow]
  omega

/-- One word adds its value modulo 2^64, so no carry between the halves is lost (R110). -/
theorem accumulate_value (acc : Accumulator) (w : Word) :
    (accumulate acc w).value = (acc.value + w.toNat) % 2 ^ 64 := by
  have hw := w.isLt
  rw [accumulate, Accumulator.value_halves, BitVec.toNat_add, Accumulator.joined_toNat, BitVec.toNat_setWidth,
    Nat.mod_eq_of_lt (a := w.toNat) (by omega)]

theorem foldl_accumulate_value (ws : List Word) (acc : Accumulator) :
    (ws.foldl accumulate acc).value = (acc.value + (ws.map (·.toNat)).sum) % 2 ^ 64 := by
  induction ws generalizing acc with
  | nil => rw [List.foldl_nil, List.map_nil, List.sum_nil, Nat.add_zero, Nat.mod_eq_of_lt acc.value_lt]
  | cons w ws ih =>
    rw [List.foldl_cons, ih, accumulate_value, Nat.mod_add_mod, List.map_cons, List.sum_cons, Nat.add_assoc]

theorem accumulateAll_value (B : List Byte) :
    (accumulateAll B).value = ((leWords B).map (·.toNat)).sum % 2 ^ 64 := by
  rw [accumulateAll, foldl_accumulate_value, Accumulator.value_zero, Nat.zero_add]

/-- Settles O41: each word adds its value to the number the halves stand for. -/
theorem accumulatorIsTheSixtyFourBitSum : Obligations.AccumulatorIsTheSixtyFourBitSum := accumulateAll_value

/-! ## The checksum (R112, R116, R118) -/

theorem checksum_toNat (B : List Byte) :
    (checksum B).toNat = 2 ^ 32 - 1 - ((accumulateAll B).hi.toNat + (accumulateAll B).lo.toNat) % 2 ^ 32 := by
  rw [checksum, BitVec.toNat_not, BitVec.toNat_add]

/-- Settles O42: the sum of the halves is a word's sum, and V-CK-6 is the region whose halves carry. -/
theorem checksumDropsTheCarry : Obligations.ChecksumDropsTheCarry := ⟨checksum_toNat, by decide⟩

/-- The words of a uniform region are uniform. -/
theorem leWords_replicate (n : Nat) (b : Byte) :
    leWords (List.replicate (4 * n) b) = List.replicate n (leValue [b, b, b, b]) := by
  induction n with
  | zero => rfl
  | succ n ih => exact congrArg (leValue [b, b, b, b] :: ·) ih

/-- The accumulator after `n` equal words holds `n` times the word. -/
theorem accumulateAll_replicate_value (n : Nat) (b : Byte) :
    (accumulateAll (List.replicate (4 * n) b)).value = n * (leValue [b, b, b, b]).toNat % 2 ^ 64 := by
  rw [accumulateAll_value, leWords_replicate, List.map_replicate, List.sum_replicate, smul_eq_mul]

/-- `n` words FFFFFFFF leave `n - 1` and `2 ^ 32 - n` in the halves, whose sum is FFFFFFFF (R118). -/
theorem checksum_replicate_ff {n : Nat} (h1 : 1 ≤ n) (h63 : n ≤ 63) :
    checksum (List.replicate (4 * n) 0xFF) = 0 := by
  have hvalue := accumulateAll_replicate_value n 0xFF
  have hword : (leValue [0xFF, 0xFF, 0xFF, 0xFF]).toNat = 0xFFFFFFFF := by decide
  have hlt := (accumulateAll (List.replicate (4 * n) 0xFF)).lo.isLt
  rw [hword, Nat.mod_eq_of_lt (by omega), Accumulator.value] at hvalue
  have hhi : (accumulateAll (List.replicate (4 * n) 0xFF)).hi.toNat = n - 1 := by omega
  have hlo : (accumulateAll (List.replicate (4 * n) 0xFF)).lo.toNat = 2 ^ 32 - n := by omega
  have hsum : n - 1 + (2 ^ 32 - n) = 2 ^ 32 - 1 := by omega
  apply BitVec.eq_of_toNat_eq
  rw [checksum_toNat, hhi, hlo, hsum]
  rfl

/-- Zero words leave 0 in both halves (R116, R118). -/
theorem checksum_replicate_zero (n : Nat) : checksum (List.replicate (4 * n) 0) = 0xFFFFFFFF := by
  have hvalue := accumulateAll_replicate_value n 0
  have hword : (leValue [0, 0, 0, 0]).toNat = 0 := by decide
  rw [hword, Accumulator.value] at hvalue
  apply BitVec.eq_of_toNat_eq
  rw [checksum_toNat]
  bv_omega

/-- Settles O43, from the sums of uniform words. -/
theorem checksumOfUniformRegions : Obligations.ChecksumOfUniformRegions :=
  ⟨fun _ => checksum_replicate_ff, checksum_replicate_zero⟩

/-! ## CKSUM (R114) -/

/-- Settles O26: the checks pass and the region reads as its bytes. -/
theorem cksumStoresTheChecksum : Obligations.CksumStoresTheChecksum := by
  intro src off len s B hoff hlen hrange hl hB
  rw [execCksum_eq, cksumResult_wellFormed hoff hlen hrange, State.withCells_of_holds hl hB]
  rfl

/-- Settles O27: the alignment check stands before the range check. -/
theorem cksumReportsAlignThenRange : Obligations.CksumReportsAlignThenRange := by
  refine fun src off len s => ⟨fun hmis => ?_, fun ⟨hoff, hlen, hrange⟩ => ?_⟩
  · rw [execCksum_eq, cksumResult, checkAlign_of_misaligned hmis]
    rfl
  · rw [execCksum_eq, cksumResult, checkAlign_of_aligned hoff hlen, checkRange_of_gt hrange]
    rfl

/-! ## The checksums ENCODE stores (R115, R202) -/

/-- ENCODE of an image whose read set IN holds. -/
theorem exec_encode_of_holds {r : Rev} {s : State} {block factory userTail : List Byte} (hbl : block.length = 28)
    (hfl : factory.length = 44) (hul : userTail.length = 156) (hb : s.holds .inBuf 0x14 block)
    (hf : s.holds .inBuf 0x34 factory) (hu : s.holds .inBuf 0x64 userTail) :
    exec (.encode (revCode r)) s =
      .next ((s.writeCells .outBuf 0 (encodedImage Config.platform r block factory userTail)).complete rrevNone) := by
  rw [execEncode_eq, encodeResult_supported, State.withCells_of_holds hbl hb, State.withCells_of_holds hfl hf,
    State.withCells_of_holds hul hu]

/-- An encoded image holds each of its two sections behind that section's checksum. -/
theorem State.holds_sections_of_encodedImage {cfg : Config} {r : Rev} {s : State} {b : Buffer}
    {block factory userTail : List Byte} (hbl : block.length = 28) (hfl : factory.length = 44)
    (h : s.holds b 0 (encodedImage cfg r block factory userTail)) :
    s.holds b 0x30 (leBytes32 (checksum factory) ++ factory) ∧
      s.holds b 0x60 (leBytes32 (checksum (slice userTail 0 92)) ++ slice userTail 0 92) := by
  have huser : slice userTail 0 92 ++ userTail.drop 92 = userTail := List.take_append_drop 92 userTail
  constructor
  · have hpart := State.holds_part (b := b) (off := 0) (s := s)
      (pre := keyedHash cfg r block ++ rc4 (keyedHash cfg r (keyedHash cfg r block)) block)
      (mid := leBytes32 (checksum factory) ++ factory)
      (post := leBytes32 (checksum (slice userTail 0 92)) ++ userTail)
      (by simpa only [encodedImage, List.append_assoc] using h)
    simpa [hbl] using hpart
  · have hpart := State.holds_part (b := b) (off := 0) (s := s)
      (pre := keyedHash cfg r block ++ rc4 (keyedHash cfg r (keyedHash cfg r block)) block
        ++ leBytes32 (checksum factory) ++ factory)
      (mid := leBytes32 (checksum (slice userTail 0 92)) ++ slice userTail 0 92)
      (post := userTail.drop 92)
      (by simpa only [encodedImage, List.append_assoc, huser] using h)
    simpa [hbl, hfl] using hpart

/-- CKSUM of a section that stands behind its checksum computes the word that is stored there (R115). -/
theorem exec_cksum_of_stored {src : Src} {off len : BitVec 8} {s : State} {a : Nat} {B : List Byte}
    (hstatus : s.status = 0x00000F00) (hoff : off.toNat = a + 4) (ha : a % 4 = 0) (hlen : len.toNat % 4 = 0)
    (hrange : off.toNat + len.toNat ≤ 256) (hl : B.length = len.toNat)
    (h : s.holds (srcBuffer src) a (leBytes32 (checksum B) ++ B)) :
    s.holds (srcBuffer src) a (leBytes32 (checksum B)) ∧
      exec (.cksum src off len) s = .next { s with cksum := some (checksum B) } := by
  have hB : s.holds (srcBuffer src) off.toNat B := by
    rw [hoff]
    exact State.holds_part (pre := leBytes32 (checksum B)) (post := []) (by simpa using h)
  refine ⟨State.holds_part (pre := []) h, ?_⟩
  rw [cksumStoresTheChecksum src off len s B (by omega) hlen hrange hl hB, ← hstatus]

/-- Settles O53: OUT holds both sections behind their checksums, and ENCODE leaves STATUS as CKSUM writes it. -/
theorem encodedImageStoresItsOwnChecksums : Obligations.EncodedImageStoresItsOwnChecksums := by
  intro r s hdef
  obtain ⟨block, hbl, hb⟩ := State.exists_holds (n := 28) fun k (_ : 0x14 ≤ k) hk => hdef k (by omega)
  obtain ⟨factory, hfl, hf⟩ := State.exists_holds (n := 44) fun k (_ : 0x34 ≤ k) hk => hdef k (by omega)
  obtain ⟨userTail, hul, hu⟩ := State.exists_holds (n := 156) fun k (_ : 0x64 ≤ k) hk => hdef k (by omega)
  refine ⟨_, exec_encode_of_holds hbl hfl hul hb hf hu, checksum factory, checksum (slice userTail 0 92), ?_⟩
  have himage := State.holds_complete (r := rrevNone) |>.2 <|
    State.holds_writeCells_self s .outBuf 0 (encodedImage Config.platform r block factory userTail)
  obtain ⟨hfactory, huser⟩ := State.holds_sections_of_encodedImage hbl hfl himage
  obtain ⟨hf30, hcf⟩ := exec_cksum_of_stored (src := .outBuf) (off := 0x34) (len := 44)
    doneStatus_none_ok rfl rfl rfl (by decide) hfl hfactory
  obtain ⟨hu60, hcu⟩ := exec_cksum_of_stored (src := .outBuf) (off := 0x64) (len := 92)
    doneStatus_none_ok rfl rfl rfl (by decide) (by simp [hul]) huser
  exact ⟨hf30, hcf, hu60, hcu⟩

end Sys2Proof.Machine
end

section
/-! Proofs about the key schedule (41_key_schedule.md): padding, the message schedule, the rounds and the compression, the
seeded hash and its reading as HMAC, and what KHASH does. -/

namespace Sys2Proof.Machine

/-! ## Padding (R131) -/

/-- Settles O45: the zeros fill up the last block, and stand between 0x80 and the length field. -/
theorem paddingFillsWholeBlocks : Obligations.PaddingFillsWholeBlocks := by
  intro p m
  have hlength : (pad p m).length = 64 * ((m.length + 8) / 64 + 1) := by
    simp only [pad, List.length_append, List.length_singleton, List.length_replicate, beBytes64_length]
    omega
  refine ⟨hlength, ⟨_, (List.append_assoc ..).symm⟩, List.suffix_append .., fun i hlo hhi => ?_⟩
  simp only [pad, List.length_append, List.length_singleton, List.length_replicate, beBytes64_length] at hhi ⊢
  rw [List.getElem?_append_left (by simp; omega), List.getElem?_append_right (by simpa using hlo),
    List.getElem?_replicate_of_lt (by simp; omega)]

/-- A whole block in front of a message is one counted in PREFIX_LEN. -/
theorem pad_append_block {K : List Byte} (hK : K.length = 64) (m : List Byte) : pad 0 (K ++ m) = K ++ pad 64 m := by
  simp [pad, hK]

/-! ## The message schedule (R132, R133) -/

theorem beWords_length (B : List Byte) : (beWords B).length = B.length / 4 := by
  fun_induction beWords B with
  | case1 b0 b1 b2 b3 rest ih => simp only [List.length_cons, ih]; omega
  | case2 B hshort =>
    match B, hshort with
    | [], _ | [_], _ | [_, _], _ | [_, _, _], _ => simp
    | b0 :: b1 :: b2 :: b3 :: rest, h => exact absurd rfl (h b0 b1 b2 b3 rest)

/-- Word `t` of a byte string is the big-endian value of its bytes from `4t` on (R132). -/
theorem beWords_getElem? {B : List Byte} {t : Nat} (h : 4 * t + 4 ≤ B.length) :
    (beWords B)[t]? = some (beValue (slice B (4 * t) (4 * t + 4))) := by
  induction t generalizing B with
  | zero =>
    match B, h with
    | b0 :: b1 :: b2 :: b3 :: rest, _ => rfl
  | succ t ih =>
    match B, h with
    | b0 :: b1 :: b2 :: b3 :: rest, h =>
      have := ih (B := rest) (by simp at h; omega)
      simpa [beWords, slice, Nat.mul_add] using this

/-- The word R133 makes of the words before it, the newest word first. -/
def nextScheduleWord (ws : List Word) : Word :=
  rotl32 (ws.getD 2 0 ^^^ ws.getD 7 0 ^^^ ws.getD 13 0 ^^^ ws.getD 15 0) 1

/-- The newest word is made of all the others. -/
theorem extendSchedule_succ (n : Nat) (ws : List Word) :
    extendSchedule (n + 1) ws = nextScheduleWord (extendSchedule n ws) :: extendSchedule n ws := by
  induction n generalizing ws with
  | zero => rfl
  | succ n ih => exact ih (nextScheduleWord ws :: ws)

@[simp] theorem extendSchedule_length (n : Nat) (ws : List Word) : (extendSchedule n ws).length = n + ws.length := by
  induction n with
  | zero => simp [extendSchedule]
  | succ n ih => rw [extendSchedule_succ, List.length_cons, ih]; omega

theorem suffix_extendSchedule (n : Nat) (ws : List Word) : ws <:+ extendSchedule n ws := by
  induction n with
  | zero => exact List.suffix_refl ws
  | succ n ih => rw [extendSchedule_succ]; exact ih.trans (List.suffix_cons ..)

/-- Each of the `n` new words is made of those before it. -/
theorem extendSchedule_getElem? {n k : Nat} (ws : List Word) (h : k < n) :
    (extendSchedule n ws)[k]? = some (nextScheduleWord ((extendSchedule n ws).drop (k + 1))) := by
  induction n generalizing k with
  | zero => omega
  | succ n ih =>
    rw [extendSchedule_succ]
    cases k with
    | zero => rfl
    | succ k => exact ih (by omega)

theorem beWords_prefix_schedule (M : List Byte) : beWords M <+: schedule M := by
  rw [← List.reverse_reverse (beWords M)]
  exact List.reverse_prefix.2 (suffix_extendSchedule ..)

theorem schedule_length {M : List Byte} (h : M.length = 64) : (schedule M).length = 80 := by
  simp [schedule, beWords_length, h]

/-- Word `t` of the schedule is the recurrence's word of those before it (R133). -/
theorem schedule_getElem?_of_ge {M : List Byte} (hM : M.length = 64) {t : Nat} (h16 : 16 ≤ t) (h80 : t < 80) :
    (schedule M)[t]? = some (nextScheduleWord ((schedule M).take t).reverse) := by
  have hlen : (extendSchedule 64 (beWords M).reverse).length = 80 := by simp [beWords_length, hM]
  rw [schedule, List.getElem?_reverse (by omega), hlen, extendSchedule_getElem? _ (by omega), List.take_reverse,
    List.reverse_reverse, hlen]
  congr 3
  omega

/-- Counted back from turn `t`, word `j` is word `t - 1 - j`. -/
theorem getD_reverse_take {W : List Word} {t j : Nat} (ht : t ≤ W.length) (hj : j < t) :
    (W.take t).reverse.getD j 0 = W.getD (t - 1 - j) 0 := by
  have hlen : (W.take t).length = t := List.length_take_of_le ht
  rw [List.getD_eq_getElem?_getD, List.getD_eq_getElem?_getD, List.getElem?_reverse (by omega), hlen,
    List.getElem?_take_of_lt (by omega)]

/-- Settles O44: the block's words stand first, and every later word is the recurrence's. -/
theorem scheduleFollowsTheRecurrence : Obligations.ScheduleFollowsTheRecurrence := by
  intro M hM
  have hlen := schedule_length hM
  refine ⟨hlen, fun t ht => ?_, fun t h16 h80 => ?_⟩
  · obtain ⟨later, hlater⟩ := beWords_prefix_schedule M
    rw [← hlater, List.getElem?_append_left (by rw [beWords_length]; omega), beWords_getElem? (by omega)]
  · rw [schedule_getElem?_of_ge hM h16 h80, nextScheduleWord, getD_reverse_take (by omega) (by omega),
      getD_reverse_take (by omega) (by omega), getD_reverse_take (by omega) (by omega),
      getD_reverse_take (by omega) (by omega)]
    rfl

/-! ## The rounds and the compression (R134, R135) -/

theorem getLsbD_choice (b c d : Word) {i : Nat} (hi : i < 32) :
    ((b &&& c) ||| (~~~b &&& d)).getLsbD i = if b.getLsbD i then c.getLsbD i else d.getLsbD i := by
  simp only [BitVec.getLsbD_or, BitVec.getLsbD_and, BitVec.getLsbD_not, hi, decide_true, Bool.true_and]
  cases b.getLsbD i <;> simp

theorem getLsbD_majority (b c d : Word) (i : Nat) :
    ((b &&& c) ||| (b &&& d) ||| (c &&& d)).getLsbD i =
      decide (2 ≤ (b.getLsbD i).toNat + (c.getLsbD i).toNat + (d.getLsbD i).toNat) := by
  simp only [BitVec.getLsbD_or, BitVec.getLsbD_and]
  generalize b.getLsbD i = x, c.getLsbD i = y, d.getLsbD i = z
  revert x y z
  decide

theorem getLsbD_parity (b c d : Word) (i : Nat) :
    (b ^^^ c ^^^ d).getLsbD i =
      decide (((b.getLsbD i).toNat + (c.getLsbD i).toNat + (d.getLsbD i).toNat) % 2 = 1) := by
  simp only [BitVec.getLsbD_xor]
  generalize b.getLsbD i = x, c.getLsbD i = y, d.getLsbD i = z
  revert x y z
  decide

/-- Settles O56: the four ranges of rounds, each with its function of the three bits. -/
theorem roundFunctionsAndConstants : Obligations.RoundFunctionsAndConstants := by
  refine fun t b c d _ => ⟨fun i hi => ?_, rfl⟩
  unfold roundF
  by_cases h20 : t < 20
  · rw [if_pos h20, if_pos h20, getLsbD_choice b c d hi]
  rw [if_neg h20, if_neg h20]
  by_cases h40 : t < 40
  · rw [if_pos h40, if_neg (by omega), getLsbD_parity]
  rw [if_neg h40]
  by_cases h60 : t < 60
  · rw [if_pos h60, if_pos ⟨by omega, h60⟩, getLsbD_majority]
  · rw [if_neg h60, if_neg (by omega), getLsbD_parity]

/-- The state after the first `t` rounds of a block. -/
def roundState (H : Chain) (M : List Byte) (t : Nat) : Chain := sha1Rounds 0 ((schedule M).take t) H

theorem sha1Rounds_concat (t : Nat) (ws : List Word) (w : Word) (s : Chain) :
    sha1Rounds t (ws ++ [w]) s = sha1Round (sha1Rounds t ws s) (t + ws.length) w := by
  induction ws generalizing t s with
  | nil => rfl
  | cons v ws ih =>
    rw [List.cons_append, sha1Rounds, ih, sha1Rounds, List.length_cons, Nat.add_assoc, Nat.add_comm 1]

/-- Each round takes its own word of the schedule. -/
theorem roundState_succ {H : Chain} {M : List Byte} (hM : M.length = 64) {t : Nat} (ht : t < 80) :
    roundState H M (t + 1) = sha1Round (roundState H M t) t ((schedule M).getD t 0) := by
  have hlt : t < (schedule M).length := by rw [schedule_length hM]; exact ht
  rw [roundState, List.take_succ_eq_append_getElem hlt, sha1Rounds_concat, List.length_take_of_le hlt.le, Nat.zero_add,
    List.getD_eq_getElem _ _ hlt]
  rfl

theorem sha1Round_eq (s : Chain) (t : Nat) (w : Word) :
    sha1Round s t w =
      ⟨s.a.rotateLeft 5 + roundF t s.b s.c s.d + s.e + roundK t + w, s.a, s.b.rotateLeft 30, s.c, s.d⟩ := by
  rw [sha1Round, rotl32_eq_rotateLeft _ (by decide), rotl32_eq_rotateLeft _ (by decide)]

/-- Settles O57: the states after the first rounds, up to the state after all 80. -/
theorem compressionRunsTheEightyRounds : Obligations.CompressionRunsTheEightyRounds := by
  intro H M hM
  refine ⟨roundState H M, rfl, fun t ht => by rw [roundState_succ hM ht, sha1Round_eq], ?_⟩
  rw [roundState, List.take_of_length_le (schedule_length hM).le]
  rfl

/-! ## The seeded hash (R136 to R140) -/

/-- The last of the blocks is compressed last (R136). -/
theorem compressBlocks_succ (n : Nat) (P : List Byte) (H : Chain) :
    compressBlocks (n + 1) P H = compress (compressBlocks n P H) (slice P (64 * n) (64 * n + 64)) := by
  induction n generalizing P H with
  | zero => simp [compressBlocks, slice]
  | succ n ih =>
    rw [compressBlocks, ih, ← compressBlocks]
    simp [slice, Nat.mul_add, Nat.add_comm]

/-- Byte `j` of word `k` of a string of big-endian words. -/
theorem flatMap_beBytes32_getElem? {ws : List Word} {k j : Nat} (hk : k < ws.length) (hj : j < 4) :
    (ws.flatMap beBytes32)[4 * k + j]? = (beBytes32 (ws.getD k 0))[j]? := by
  induction ws generalizing k with
  | nil => simp at hk
  | cons w ws ih =>
    rw [List.flatMap_cons]
    cases k with
    | zero => rw [List.getElem?_append_left (by simp; omega)]; simp
    | succ k =>
      have hindex : 4 * (k + 1) + j - (beBytes32 w).length = 4 * k + j := by rw [beBytes32_length]; omega
      rw [List.getElem?_append_right (by simp; omega), hindex, ih (Nat.lt_of_succ_lt_succ hk), List.getD_cons_succ]

/-- The digest's bytes, each word most significant byte first (R137). -/
theorem digestBytes_getElem? (H : Chain) {k j : Nat} (hk : k < 5) (hj : j < 4) :
    (digestBytes H)[4 * k + j]? = some (([H.a, H.b, H.c, H.d, H.e].getD k 0 >>> (24 - 8 * j)).setWidth 8) := by
  have hflat : digestBytes H = [H.a, H.b, H.c, H.d, H.e].flatMap beBytes32 := rfl
  rw [hflat, flatMap_beBytes32_getElem? hk hj, beBytes32_getElem? _ hj]

/-- Settles O58: the states after the first blocks, up to the one the digest is taken from. -/
theorem keyedHashChainsThePaddedBlocks : Obligations.KeyedHashChainsThePaddedBlocks :=
  ⟨fun p seed m => ⟨fun n => compressBlocks n (pad p m) (loadSeed seed), rfl,
      fun n _ => compressBlocks_succ n (pad p m) (loadSeed seed), seededSha1_length p seed m,
      fun _ hk _ hj => digestBytes_getElem? _ hk hj⟩,
    fun cfg r m => by rw [keyedHash]⟩

/-! ## The HMAC reading (R144) -/

@[simp] theorem xorPad_length (K : List Byte) (p : Byte) : (xorPad K p).length = K.length := List.length_map ..

@[simp] theorem loadSeed_toSeed (H : Chain) : loadSeed H.toSeed = H := rfl

/-- SHA-1 of a block and a message is the hash of the message, seeded with the state after the block and counting the
block in its length. -/
theorem sha1_block_append {K : List Byte} (hK : K.length = 64) (m : List Byte) :
    sha1 (K ++ m) = seededSha1 64 (compress (loadSeed publicIv) K).toSeed m := by
  have hblocks : (K ++ pad 64 m).length / 64 = (pad 64 m).length / 64 + 1 := by
    rw [List.length_append, hK]
    omega
  rw [sha1, seededSha1, pad_append_block hK, hblocks, compressBlocks, List.take_left' hK, List.drop_left' hK,
    seededSha1, loadSeed_toSeed]

/-- Settles O46: each of HMAC's two hashes starts with one key block. -/
theorem keyedHashIsHmacUnderKeyBlockSeeds : Obligations.KeyedHashIsHmacUnderKeyBlockSeeds := by
  intro K m r hK
  rw [hmacSha1, sha1_block_append (by simpa using hK), sha1_block_append (by simpa using hK), keyedHash]
  rfl

/-! ## KHASH (R142) -/

/-- Settles O28: the checks pass, the region reads as its bytes, and DIGEST's 20 cells are written. -/
theorem khashStoresTheKeyedHash : Obligations.KhashStoresTheKeyedHash := by
  intro r src off len s m hrange hl hm
  refine ⟨(s.writeCells .digest 0 (keyedHash Config.platform r m)).complete rrevNone, ?_, rfl, fun a => ?_⟩
  · rw [execKhash_eq, khashResult_wellFormed hrange, State.withCells_of_holds hl hm]
  · rw [State.complete_mem, State.writeCells_mem, Memory.get?_setBytes, keyedHash_len]
    rfl

/-- Settles O29: the revision check stands before the range check. -/
theorem khashReportsRevisionThenRange : Obligations.KhashReportsRevisionThenRange := by
  refine fun rev src off len s => ⟨fun hrev => ?_, fun ⟨hrev, hrange⟩ => ?_⟩
  · rw [execKhash_eq, khashResult, revOfCode_eq_none.2 hrev]
    rfl
  · obtain ⟨r, rfl⟩ := exists_revCode_of_revOk (decide_eq_true hrev)
    rw [execKhash_eq, khashResult, revOfCode_revCode, checkRange_of_gt hrange]
    rfl

end Sys2Proof.Machine
end

section
/-! Proofs about the stream cipher (42_stream_cipher.md): the two loops of RC4 entry by entry, the transform, and what
RC4X does. -/

namespace Sys2Proof.Machine

/-! ## Key scheduling (R160) -/

/-- A swap only moves entries. -/
theorem sboxSwap_perm {S : List Byte} (h : S.length = 256) (i j : Byte) : (sboxSwap S i j).Perm S := by
  have hlt : ∀ y : Byte, y.toNat < S.length := fun y => by have := y.isLt; omega
  have hat : ∀ y : Byte, sboxAt S y = S[y.toNat]'(hlt y) := fun y => List.getD_eq_getElem _ _ (hlt y)
  rw [sboxSwap, hat i, hat j]
  exact List.set_set_perm (hlt i) (hlt j)

/-- The array key scheduling starts from. -/
def identitySbox : List Byte := (List.range 256).map (BitVec.ofNat 8)

@[simp] theorem identitySbox_length : identitySbox.length = 256 := by
  rw [identitySbox, List.length_map, List.length_range]

theorem sboxAt_identitySbox (x : Byte) : sboxAt identitySbox x = x := by
  have hx : identitySbox[x.toNat]? = some x := by simp [identitySbox, List.getElem?_range x.isLt]
  exact Option.some.inj ((getElem?_eq_sboxAt identitySbox_length x).symm.trans hx)

/-- S and j after the first `n` turns of key scheduling. -/
def ksaState (key : List Byte) (n : Nat) : List Byte × Byte := (List.range n).foldl (ksaStep key) (identitySbox, 0)

theorem ksa_eq_ksaState (key : List Byte) : ksa key = (ksaState key 256).1 := rfl

theorem ksaState_succ (key : List Byte) (n : Nat) : ksaState key (n + 1) = ksaStep key (ksaState key n) n := by
  rw [ksaState, List.range_succ, List.foldl_concat, ← ksaState]

/-- Every turn leaves a permutation of the identity. -/
theorem ksaState_perm (key : List Byte) (n : Nat) : (ksaState key n).1.Perm identitySbox := by
  induction n with
  | zero => exact .refl _
  | succ n ih =>
    rw [ksaState_succ]
    exact (sboxSwap_perm (ih.length_eq.trans identitySbox_length) _ _).trans ih

theorem ksaState_length (key : List Byte) (n : Nat) : (ksaState key n).1.length = 256 :=
  (ksaState_perm key n).length_eq.trans identitySbox_length

/-- Settles O48: every turn leaves a permutation, and so does the last. -/
theorem keyScheduleYieldsAPermutation : Obligations.KeyScheduleYieldsAPermutation := by
  intro key
  rw [ksa_eq_ksaState]
  exact ksaState_perm key 256

/-- Settles O59: the arrays and indices after each turn. -/
theorem keySchedulingFollowsItsLoop : Obligations.KeySchedulingFollowsItsLoop := by
  intro key _
  rw [ksa_eq_ksaState]
  refine ⟨fun n => sboxAt (ksaState key n).1, fun n => (ksaState key n).2, sboxAt_identitySbox, rfl,
    fun i _ => ?_, ksaState_length key 256, getElem?_eq_sboxAt (ksaState_length key 256)⟩
  beta_reduce
  rw [ksaState_succ]
  exact ⟨rfl, sboxAt_sboxSwap (ksaState_length key i) _ _⟩

/-! ## Keystream generation (R161) -/

/-- S, i and j between two turns of keystream generation. -/
structure PrgaState where
  S : List Byte
  i : Byte
  j : Byte

/-- One turn of keystream generation. -/
def PrgaState.next (p : PrgaState) : PrgaState :=
  let i := p.i + 1
  let j := p.j + sboxAt p.S i
  ⟨sboxSwap p.S i j, i, j⟩

/-- The byte a turn gives, from the array and the indices it leaves. -/
def PrgaState.byte (p : PrgaState) : Byte := sboxAt p.S (sboxAt p.S p.i + sboxAt p.S p.j)

theorem prga_succ (n : Nat) (p : PrgaState) :
    prga (n + 1) p.S p.i p.j = p.next.byte :: prga n p.next.S p.next.i p.next.j := rfl

/-- Byte `k` of the keystream is the byte of turn `k + 1`. -/
theorem prga_getElem? {n k : Nat} (hk : k < n) (p : PrgaState) :
    (prga n p.S p.i p.j)[k]? = some (PrgaState.next^[k + 1] p).byte := by
  induction n generalizing k p with
  | zero => exact absurd hk (Nat.not_lt_zero k)
  | succ n ih =>
    rw [prga_succ]
    cases k with
    | zero => rfl
    | succ k => rw [List.getElem?_cons_succ, ih (Nat.lt_of_succ_lt_succ hk), ← Function.iterate_succ_apply]

/-- The state after the first `n` turns of keystream generation from an array. -/
def prgaState (T : List Byte) (n : Nat) : PrgaState := PrgaState.next^[n] ⟨T, 0, 0⟩

theorem prgaState_succ (T : List Byte) (n : Nat) : prgaState T (n + 1) = (prgaState T n).next :=
  Function.iterate_succ_apply' ..

theorem prgaState_length (T : List Byte) (n : Nat) : (prgaState T n).S.length = T.length := by
  induction n with
  | zero => rfl
  | succ n ih => rw [prgaState_succ, PrgaState.next, sboxSwap_length, ih]

/-- Settles O60: the arrays and indices after each turn. -/
theorem keystreamFollowsItsLoop : Obligations.KeystreamFollowsItsLoop := by
  intro n T hT
  refine ⟨fun k => sboxAt (prgaState T k).S, fun k => (prgaState T k).i, fun k => (prgaState T k).j,
    getElem?_eq_sboxAt hT, rfl, rfl, fun k hk => ?_, prga_length ..⟩
  have hbyte : (prga n T 0 0)[k]? = some (prgaState T (k + 1)).byte := prga_getElem? hk ⟨T, 0, 0⟩
  beta_reduce
  rw [hbyte, prgaState_succ]
  exact ⟨rfl, rfl, sboxAt_sboxSwap ((prgaState_length T k).trans hT) _ _, rfl⟩

/-! ## The transform (R162) -/

theorem keystream_eq_prga (key : List Byte) (n : Nat) : keystream key n = prga n (ksa key) 0 0 := by rw [keystream]

theorem rc4_getElem {key D : List Byte} {k : Nat} (hk : k < D.length) :
    (rc4 key D)[k]'(by simpa using hk) = D[k] ^^^ (keystream key D.length)[k]'(by simpa using hk) :=
  List.getElem_zipWith

/-- The second transform XORs each byte with the same keystream byte, for the data is as long as before. -/
theorem rc4_rc4 (key D : List Byte) : rc4 key (rc4 key D) = D := by
  refine List.ext_getElem (by simp) fun k _ hk => ?_
  have hk' : k < (rc4 key D).length := by rwa [rc4_length]
  simp only [rc4_getElem hk', rc4_getElem hk, rc4_length, BitVec.xor_assoc, BitVec.xor_self, BitVec.xor_zero]

/-- Settles O47: the transform byte by byte, and applied twice. -/
theorem rc4IsItsOwnInverse : Obligations.Rc4IsItsOwnInverse := by
  refine fun key D => ⟨rc4_length key D, fun k hk => ?_, rc4_rc4 key D⟩
  rw [← keystream_eq_prga, List.getElem?_eq_getElem (by simpa using hk), rc4_getElem hk, List.getD_eq_getElem _ _ hk,
    List.getD_eq_getElem]

/-! ## RC4X (R165, R166) -/

/-- Settles O30: both reads are made before the write, so the source may be the region of OUT that is written. -/
theorem rc4xStoresTheTransform : Obligations.Rc4xStoresTheTransform := by
  intro src off len s key D hrange hkl hkey hl hD
  refine ⟨(s.writeCells .outBuf off.toNat (rc4 key D)).complete rrevNone, ?_, rfl, fun a => ?_⟩
  · rw [execRc4x_eq, rc4xResult_wellFormed hrange, State.withCells_of_holds hkl hkey, State.withCells_of_holds hl hD]
  · rw [State.complete_mem, State.writeCells_mem, Memory.get?_setBytes, rc4_length, hl]
    rfl

/-- Settles O31: the range check is the only one RC4X makes, and it fails. -/
theorem rc4xReportsRange : Obligations.Rc4xReportsRange := by
  intro src off len s hrange
  rw [execRc4x_eq, rc4xResult, checkRange_of_gt hrange]
  rfl

end Sys2Proof.Machine
end

section
/-! Proofs about the revision resolver (43_revision_resolver.md): when a candidate is accepted, which one wins, what
DECODE does with the image it resolves to, and the same candidate tried by the unit commands. -/

namespace Sys2Proof.Machine

/-! ## The parts of an image (R181, R183) -/

theorem slice_take (B : List Byte) {a b n : Nat} (h : b ≤ n) : slice (B.take n) a b = slice B a b := by
  rw [slice, slice, List.drop_take, List.take_take, Nat.min_eq_left (by omega)]

theorem imageTag_eq_take (img : List Byte) : imageTag img = img.take 0x14 := rfl

theorem slice_of_length {B : List Byte} {a n : Nat} (h : B.length = n) : slice B a n = B.drop a := by
  rw [slice, List.take_of_length_le (by rw [List.length_drop, h])]

section
variable {cfg : Config} {raw : List Byte} {r : Rev} (hl : raw.length = 256)
include hl

theorem decodedImage_take_tag : (decodedImage cfg raw r).take 0x14 = raw.take 0x14 := by
  rw [decodedImage, List.append_assoc, List.take_left' (imageTag_length hl), imageTag_eq_take]

theorem decodedImage_slice_block : slice (decodedImage cfg raw r) 0x14 0x30 = candidatePlain cfg raw r := by
  rw [slice, decodedImage, List.append_assoc, List.drop_left' (imageTag_length hl),
    List.take_left' (candidatePlain_length hl)]

theorem decodedImage_drop_block : (decodedImage cfg raw r).drop 0x30 = raw.drop 0x30 := by
  have hfront : (imageTag raw ++ candidatePlain cfg raw r).length = 0x30 := by
    rw [List.length_append, imageTag_length hl, candidatePlain_length hl]
  rw [decodedImage, List.drop_left' hfront, slice_of_length hl]

end

/-! ## Acceptance (R182) -/

theorem accepts_iff {cfg : Config} {raw : List Byte} {r : Rev} :
    accepts cfg raw r = true ↔ keyedHash cfg r (candidatePlain cfg raw r) = imageTag raw :=
  beq_iff_eq

/-- Settles O50: the keyed hash and the tag are both 20 bytes long. -/
theorem acceptanceComparesTheWholeTag : Obligations.AcceptanceComparesTheWholeTag := by
  intro cfg raw r hl
  rw [accepts_iff, List.ext_getElem?_iff', keyedHash_len, imageTag_length hl, Nat.max_self]
  refine forall₂_congr fun k hk => ?_
  rw [imageTag_eq_take, List.getElem?_take_of_lt hk]

/-! ## The first match (R180, R187) -/

/-- The code of a revision is its place among the candidates. -/
theorem candidates_getElem (r : Rev) : ∃ h, candidates[(revCode r).toNat]'h = r := by
  cases r <;> exact ⟨by decide, rfl⟩

theorem revCode_candidates_getElem {i : Nat} (h : i < candidates.length) : (revCode candidates[i]).toNat = i := by
  revert i
  decide

theorem mem_candidates (r : Rev) : r ∈ candidates := by
  obtain ⟨h, hr⟩ := candidates_getElem r
  exact List.mem_of_getElem hr

theorem find?_candidates_eq_some {p : Rev → Bool} {r : Rev} :
    candidates.find? p = some r ↔
      p r = true ∧ ∀ r', (revCode r').toNat < (revCode r).toNat → p r' = false := by
  rw [List.find?_eq_some_iff_getElem]
  refine and_congr_right fun _ => ⟨?_, fun hbefore => ?_⟩
  · rintro ⟨i, hi, rfl, hbefore⟩ r' hlt
    obtain ⟨h', hr'⟩ := candidates_getElem r'
    rw [revCode_candidates_getElem] at hlt
    simpa [hr'] using hbefore _ hlt
  · obtain ⟨h, hr⟩ := candidates_getElem r
    refine ⟨_, h, hr, fun j hj => ?_⟩
    have hj' : j < candidates.length := hj.trans h
    simpa using hbefore candidates[j] (by rwa [revCode_candidates_getElem hj'])

/-- The resolver answers the first accepted candidate with the image it decodes to. -/
theorem resolve_eq_map (cfg : Config) (raw : List Byte) :
    resolve cfg raw = (candidates.find? (accepts cfg raw)).map fun r => (decodedImage cfg raw r, r) := by
  rw [resolve]
  cases candidates.find? (accepts cfg raw) <;> rfl

/-- Settles O49: the candidates stand in the order of their codes, and all revisions are among them. -/
theorem resolverTakesTheFirstMatch : Obligations.ResolverTakesTheFirstMatch := by
  refine fun cfg raw => ⟨fun r img => ?_, ?_⟩
  · rw [resolve_eq_map, ← find?_candidates_eq_some, Option.map_eq_some_iff]
    constructor
    · rintro ⟨r', hfind, heq⟩
      cases heq
      exact ⟨rfl, hfind⟩
    · rintro ⟨rfl, hfind⟩
      exact ⟨r, hfind, rfl⟩
  · rw [resolve_eq_map, Option.map_eq_none_iff, List.find?_eq_none]
    exact ⟨fun h r => by simpa using h r (mem_candidates r), fun h r _ => by simp [h r]⟩

/-! ## The bytes that are not authenticated (R186, R188) -/

/-- The tag and the protected block decide which candidates are accepted. -/
theorem accepts_congr {raw raw' : List Byte} (h : raw.take 0x30 = raw'.take 0x30) (cfg : Config) :
    accepts cfg raw = accepts cfg raw' := by
  have hpart : ∀ {a b : Nat}, b ≤ 0x30 → slice raw a b = slice raw' a b := fun hb => by
    rw [← slice_take raw hb, h, slice_take raw' hb]
  have htag : imageTag raw = imageTag raw' := hpart (by omega)
  have hblock : imageBlock raw = imageBlock raw' := hpart (by omega)
  funext r
  rw [accepts, accepts, candidatePlain, candidatePlain, htag, hblock]

theorem resolve_revision (cfg : Config) (raw : List Byte) :
    (resolve cfg raw).map (·.2) = candidates.find? (accepts cfg raw) := by
  rw [resolve_eq_map, Option.map_map]
  exact Option.map_id_apply

/-- Settles O51: acceptance reads no byte from 0x30 on, and the decoded image copies them. -/
theorem unauthenticatedBytesPassThrough : Obligations.UnauthenticatedBytesPassThrough := by
  refine fun cfg raw raw' hl _ h => ⟨?_, fun img r hv => ?_⟩
  · rw [resolve_revision, resolve_revision, accepts_congr h]
  · obtain ⟨rfl, -⟩ := resolve_eq_some hv
    exact decodedImage_drop_block hl

/-! ## DECODE (R184, R185) -/

theorem exec_decode_of_some {s : State} {raw img : List Byte} {r : Rev} (hl : raw.length = 256)
    (h : s.holds .inBuf 0 raw) (hv : resolve Config.platform raw = some (img, r)) :
    exec .decode s = .next ((s.writeCells .outBuf 0 img).complete (revCode r)) := by
  rw [execDecode_eq, decodeResult, State.withCells_of_holds hl h, hv]

theorem exec_decode_of_none {s : State} {raw : List Byte} (hl : raw.length = 256) (h : s.holds .inBuf 0 raw)
    (hv : resolve Config.platform raw = none) : exec .decode s = .next (s.report .decodeFailure) := by
  rw [execDecode_eq, decodeResult, State.withCells_of_holds hl h, hv]

/-- Settles O32: the image is written over all of OUT, or the failure is reported. -/
theorem decodeResolvesTheImage : Obligations.DecodeResolvesTheImage := by
  intro s raw hl h
  cases hv : resolve Config.platform raw with
  | none => exact ⟨_, exec_decode_of_none hl h hv, rfl⟩
  | some p =>
    obtain ⟨img, r⟩ := p
    obtain ⟨rfl, -⟩ := resolve_eq_some hv
    refine ⟨_, exec_decode_of_some hl h hv, rfl, decodedImage_length hl, decodedImage_take_tag hl,
      decodedImage_drop_block hl, decodedImage_slice_block hl, rfl, fun a => ?_⟩
    rw [State.complete_mem, State.writeCells_mem, Memory.get?_setBytes, decodedImage_length hl]
    rfl

/-! ## One candidate by the unit commands (R142, R165, R181) -/

/-- A region that holds bytes holds each slice of them. -/
theorem State.holds_slice {s : State} {b : Buffer} {off : Nat} {B : List Byte} (h : s.holds b off B) (a c : Nat) :
    s.holds b (off + a) (slice B a c) := by
  intro k hk
  rw [slice_length] at hk
  rw [slice_getElem?, if_pos (by omega), Nat.add_assoc]
  exact h (a + k) (by omega)

theorem State.holds_iff_eq {s : State} {b : Buffer} {off : Nat} {B C : List Byte} (hl : B.length = C.length)
    (hB : s.holds b off B) : s.holds b off C ↔ B = C :=
  ⟨State.holds_unique hl hB, fun h => h ▸ hB⟩

/-- KHASH leaves the keyed hash in DIGEST, and IN and OUT as they were. -/
theorem exists_exec_khash {r : Rev} {src : Src} {off len : BitVec 8} {s : State} {m : List Byte}
    (hrange : off.toNat + len.toNat ≤ 256) (hl : m.length = len.toNat) (hm : s.holds (srcBuffer src) off.toNat m) :
    ∃ t, exec (.khash (revCode r) src off len) s = .next t ∧ t.holds .digest 0 (keyedHash Config.platform r m) ∧
      ∀ b off' B, b.base + off' + B.length ≤ 0x200 → s.holds b off' B → t.holds b off' B := by
  obtain ⟨t, hexec, -, hcells⟩ := khashStoresTheKeyedHash r src off len s m hrange hl hm
  refine ⟨t, hexec, fun k hk => ?_, fun b off' B hfit hB k hk => ?_⟩
  · rw [keyedHash_len] at hk
    rw [State.cell?_def, Buffer.base, Nat.zero_add, hcells, if_pos (by omega), Nat.add_sub_cancel_left]
  · rw [State.cell?_def, hcells, if_neg (by omega)]
    exact hB k hk

/-- RC4X leaves the transform in OUT, at the offset of its source. -/
theorem exists_exec_rc4x {src : Src} {off len : BitVec 8} {s : State} {key D : List Byte}
    (hrange : off.toNat + len.toNat ≤ 256) (hkl : key.length = 20) (hkey : s.holds .digest 0 key)
    (hl : D.length = len.toNat) (hD : s.holds (srcBuffer src) off.toNat D) :
    ∃ t, exec (.rc4x src off len) s = .next t ∧ t.holds .outBuf off.toNat (rc4 key D) := by
  obtain ⟨t, hexec, -, hcells⟩ := rc4xStoresTheTransform src off len s key D hrange hkl hkey hl hD
  refine ⟨t, hexec, fun k hk => ?_⟩
  rw [rc4_length] at hk
  rw [State.cell?_def, Buffer.base, ← Nat.add_assoc, hcells, if_pos (by omega), Nat.add_sub_cancel_left]

/-- Settles O54: the key stands in DIGEST for the second command, the candidate plaintext in OUT for the third, and
the third leaves the hash that acceptance compares with the tag. -/
theorem unitCommandsReproduceTheResolver : Obligations.UnitCommandsReproduceTheResolver := by
  intro r s raw hl h
  have hplain : (candidatePlain Config.platform raw r).length = 28 := candidatePlain_length hl
  obtain ⟨s1, htag, hkey, hkeep⟩ := exists_exec_khash (r := r) (src := .inBuf) (off := 0x00) (len := 20) (by decide)
    (imageTag_length hl) (State.holds_slice h 0 0x14)
  have hblock : s1.holds .inBuf 0x14 (imageBlock raw) :=
    hkeep .inBuf 0x14 _ (by rw [imageBlock_length hl]; decide) (State.holds_slice h 0x14 0x30)
  obtain ⟨s2, hpb, hout⟩ := exists_exec_rc4x (src := .inBuf) (off := 0x14) (len := 28) (by decide)
    (keyedHash_len ..) hkey (imageBlock_length hl) hblock
  obtain ⟨s3, hverify, hdigest, hkeep'⟩ := exists_exec_khash (r := r) (src := .outBuf) (off := 0x14) (len := 28)
    (by decide) hplain hout
  refine ⟨s1, s2, s3, htag, hpb, hverify, hkeep' .outBuf 0x14 _ (by rw [hplain]; decide) hout, ?_⟩
  rw [accepts_iff]
  exact State.holds_iff_eq (by rw [keyedHash_len, ← imageTag_eq_take, imageTag_length hl]) hdigest

end Sys2Proof.Machine
end

section
/-! Proofs about the codec facade (44_codec_facade.md): NOP, what ENCODE writes and what it depends on, and the round
trip through DECODE. -/

namespace Sys2Proof.Machine

/-! ## NOP (R207) -/

theorem encodeWord_nop : encodeWord .nop = 0 := by decide

/-- No other command has NOP's opcode (R84). -/
theorem eq_nop_of_fieldOp_encodeWord {i : Instr} (h : fieldOp (encodeWord i) = 0) : i = .nop := by
  cases i with
  | nop => rfl
  | cksum src off len => simp [encodeWord] at h
  | khash rev src off len => simp [encodeWord] at h
  | rc4x src off len => simp [encodeWord] at h
  | decode => simp [encodeWord] at h
  | encode rev => simp [encodeWord] at h

/-- Settles O25: a word with OP = 0 that decodes is the encoding of NOP, which is 0. -/
theorem nopWritesOnlyStatus : Obligations.NopWritesOnlyStatus := by
  refine ⟨fun v hop => ?_, fun s => rfl⟩
  split
  · next hv => rw [hv, ← encodeWord_nop, decodeOfEncodeIsIdentity]
  · next hv =>
    cases hd : decodeWord v with
    | error e => exact ⟨e, rfl⟩
    | ok i =>
      have hword : encodeWord i = v := encodeOfDecodeIsIdentity v i hd
      obtain rfl : i = .nop := eq_nop_of_fieldOp_encodeWord (hword.symm ▸ hop)
      exact absurd (hword.symm.trans encodeWord_nop) hv

/-! ## What ENCODE reads and writes (R200, R201, R205, R206) -/

/-- Settles O34: the revision check stands before the reads. -/
theorem encodeRejectsUnsupportedRevision : Obligations.EncodeRejectsUnsupportedRevision := by
  intro rev s hrev
  rw [execEncode_eq, encodeResult, revOfCode_eq_none.2 hrev]
  rfl

/-- ENCODE's read set in IN holds these parts: the protected block, the factory section and the user section with the
tail, the two sections without their checksums (R206). -/
structure State.HoldsEncodeInput (s : State) (block factory userTail : List Byte) : Prop where
  block_length : block.length = 28
  factory_length : factory.length = 44
  userTail_length : userTail.length = 156
  holds_block : s.holds .inBuf 0x14 block
  holds_factory : s.holds .inBuf 0x34 factory
  holds_userTail : s.holds .inBuf 0x64 userTail

/-- The cells of ENCODE's read set (R206). -/
abbrev encodeReads (k : Nat) : Prop := 0x14 ≤ k ∧ k < 0x30 ∨ 0x34 ≤ k ∧ k < 0x60 ∨ 0x64 ≤ k ∧ k < 0x100

theorem State.exists_holdsEncodeInput {s : State} (h : ∀ k, encodeReads k → s.cell? .inBuf k ≠ none) :
    ∃ block factory userTail, s.HoldsEncodeInput block factory userTail := by
  obtain ⟨block, hbl, hb⟩ := State.exists_holds (n := 28) fun k (_ : 0x14 ≤ k) _ => h k (by omega)
  obtain ⟨factory, hfl, hf⟩ := State.exists_holds (n := 44) fun k (_ : 0x34 ≤ k) _ => h k (by omega)
  obtain ⟨userTail, hul, hu⟩ := State.exists_holds (n := 156) fun k (_ : 0x64 ≤ k) _ => h k (by omega)
  exact ⟨block, factory, userTail, hbl, hfl, hul, hb, hf, hu⟩

theorem State.holds_congr {s s' : State} {b : Buffer} {off : Nat} {B : List Byte}
    (h : ∀ k < B.length, s.cell? b (off + k) = s'.cell? b (off + k)) (hB : s.holds b off B) : s'.holds b off B :=
  fun k hk => (h k hk).symm.trans (hB k hk)

section
variable {s : State} {block factory userTail : List Byte} (h : s.HoldsEncodeInput block factory userTail)
include h

theorem State.HoldsEncodeInput.congr {s' : State}
    (hagree : ∀ k, encodeReads k → s.cell? .inBuf k = s'.cell? .inBuf k) :
    s'.HoldsEncodeInput block factory userTail := by
  obtain ⟨hbl, hfl, hul, hb, hf, hu⟩ := h
  exact ⟨hbl, hfl, hul, State.holds_congr (fun k _ => hagree _ (by omega)) hb,
    State.holds_congr (fun k _ => hagree _ (by omega)) hf, State.holds_congr (fun k _ => hagree _ (by omega)) hu⟩

theorem State.HoldsEncodeInput.exec_encode (r : Rev) :
    exec (.encode (revCode r)) s =
      .next ((s.writeCells .outBuf 0 (encodedImage Config.platform r block factory userTail)).complete rrevNone) :=
  exec_encode_of_holds h.block_length h.factory_length h.userTail_length h.holds_block h.holds_factory h.holds_userTail

theorem State.HoldsEncodeInput.length_encodedImage (cfg : Config) (r : Rev) :
    (encodedImage cfg r block factory userTail).length = 256 :=
  encodedImage_length h.block_length h.factory_length h.userTail_length

/-- ENCODE leaves the encoded image in OUT. -/
theorem State.HoldsEncodeInput.exists_exec_encode (r : Rev) :
    ∃ t, exec (.encode (revCode r)) s = .next t ∧
      t.holds .outBuf 0 (encodedImage Config.platform r block factory userTail) :=
  ⟨_, h.exec_encode r, State.holds_complete.2 (State.holds_writeCells_self _ _ _ _)⟩

end

/-- The encoded image with the user section and the tail apart (R205). -/
theorem encodedImage_user_tail {cfg : Config} {r : Rev} {block factory user tail : List Byte} (hl : user.length = 92) :
    encodedImage cfg r block factory (user ++ tail) =
      keyedHash cfg r block ++ rc4 (keyedHash cfg r (keyedHash cfg r block)) block
        ++ leBytes32 (checksum factory) ++ factory ++ leBytes32 (checksum user) ++ user ++ tail := by
  have huser : slice (user ++ tail) 0 92 = user := List.take_left' hl
  rw [encodedImage, huser, List.append_assoc _ user tail]

/-- Settles O33: the parts are read from IN, and all 256 cells of OUT are written. -/
theorem encodeWritesTheEncodedImage : Obligations.EncodeWritesTheEncodedImage := by
  intro r s block factory user tail hbl hfl hul htl hb hf hu
  have hin : s.HoldsEncodeInput block factory (user ++ tail) :=
    ⟨hbl, hfl, by rw [List.length_append, hul, htl], hb, hf, hu⟩
  refine ⟨_, hin.exec_encode r, rfl, fun a => ?_⟩
  rw [State.complete_mem, State.writeCells_mem, Memory.get?_setBytes, hin.length_encodedImage,
    encodedImage_user_tail hul]
  rfl

/-- Settles O52: both states hold the same parts, so both leave their encoded image. -/
theorem encodeDependsOnlyOnItsReadSet : Obligations.EncodeDependsOnlyOnItsReadSet := by
  intro rev s s' t t' hagree hrev ht ht' k hk
  obtain ⟨r, rfl⟩ := exists_revCode_of_revOk (decide_eq_true hrev)
  obtain ⟨block, factory, userTail, hin⟩ := State.exists_holdsEncodeInput fun k hk => (hagree k hk).2
  have hin' : s'.HoldsEncodeInput block factory userTail := hin.congr fun k hk => (hagree k hk).1
  obtain ⟨u, hu, hout⟩ := hin.exists_exec_encode r
  obtain ⟨u', hu', hout'⟩ := hin'.exists_exec_encode r
  cases ht.symm.trans hu
  cases ht'.symm.trans hu'
  have hlt : k < (encodedImage Config.platform r block factory userTail).length := by
    rwa [hin.length_encodedImage]
  have hcell := hout k hlt
  have hcell' := hout' k hlt
  rw [Nat.zero_add] at hcell hcell'
  refine ⟨hcell.trans hcell'.symm, ?_⟩
  rw [hcell, List.getElem?_eq_getElem hlt]
  exact Option.some_ne_none _

/-! ## The round trip (R208) -/

/-- The part of an encoded image that is not authenticated: the two sections behind their checksums, and the tail. -/
def encodedSections (factory userTail : List Byte) : List Byte :=
  leBytes32 (checksum factory) ++ factory ++ leBytes32 (checksum (slice userTail 0 92)) ++ userTail

theorem encodedImage_eq (cfg : Config) (r : Rev) (block factory userTail : List Byte) :
    encodedImage cfg r block factory userTail =
      keyedHash cfg r block ++
        (rc4 (keyedHash cfg r (keyedHash cfg r block)) block ++ encodedSections factory userTail) := by
  simp only [encodedImage, encodedSections, List.append_assoc]

theorem imageTag_encodedImage (cfg : Config) (r : Rev) (block factory userTail : List Byte) :
    imageTag (encodedImage cfg r block factory userTail) = keyedHash cfg r block := by
  rw [imageTag_eq_take, encodedImage_eq, List.take_left' (keyedHash_len ..)]

section
variable {cfg : Config} {r : Rev} {block factory userTail : List Byte} (hbl : block.length = 28)
include hbl

theorem imageBlock_encodedImage :
    imageBlock (encodedImage cfg r block factory userTail) =
      rc4 (keyedHash cfg r (keyedHash cfg r block)) block := by
  rw [imageBlock, slice, encodedImage_eq, List.drop_left' (keyedHash_len ..),
    List.take_left' ((rc4_length ..).trans hbl)]

theorem drop_block_encodedImage :
    (encodedImage cfg r block factory userTail).drop 0x30 = encodedSections factory userTail := by
  rw [encodedImage_eq, ← List.append_assoc, List.drop_left']
  rw [List.length_append, keyedHash_len, rc4_length, hbl]

/-- Under its own revision an encoded image's candidate plaintext is the block that was encoded: the key is the hash of
the same tag, and the transform undoes itself. -/
theorem candidatePlain_encodedImage :
    candidatePlain cfg (encodedImage cfg r block factory userTail) r = block := by
  rw [candidatePlain, imageTag_encodedImage, imageBlock_encodedImage hbl, rc4_rc4]

/-- The revision an image was encoded under accepts it. -/
theorem accepts_encodedImage : accepts cfg (encodedImage cfg r block factory userTail) r = true := by
  rw [accepts_iff, candidatePlain_encodedImage hbl, imageTag_encodedImage]

/-- An encoded image decodes to the tag, the block that was encoded, and the sections as they were stored (R183). -/
theorem decodedImage_encodedImage (hfl : factory.length = 44) (hul : userTail.length = 156) :
    decodedImage cfg (encodedImage cfg r block factory userTail) r =
      keyedHash cfg r block ++ block ++ encodedSections factory userTail := by
  rw [decodedImage, imageTag_encodedImage, candidatePlain_encodedImage hbl,
    slice_of_length (encodedImage_length hbl hfl hul), drop_block_encodedImage hbl]

end

theorem slice_slice (B : List Byte) {a b c d : Nat} (h : a + d ≤ b) :
    slice (slice B a b) c d = slice B (a + c) (a + d) := by
  rw [slice, slice, slice, List.drop_take, List.take_take, List.drop_drop]
  congr 1
  omega

/-- Settles O55: the revision accepts what it encoded, so it is the first match, and its decoded image is written. -/
theorem encodeThenDecodeRoundTrips : Obligations.EncodeThenDecodeRoundTrips := by
  intro r s D hl hb hf hu
  have hin : s.HoldsEncodeInput (slice D 0x14 0x30) (slice D 0x34 0x60) (slice D 0x64 0x100) :=
    ⟨by simp [hl], by simp [hl], by simp [hl], hb, hf, hu⟩
  obtain ⟨t, ht, hout⟩ := hin.exists_exec_encode r
  have hEl := hin.length_encodedImage Config.platform r
  refine ⟨t, _, ht, hEl, hout, fun u hE hbefore => ?_⟩
  have hfirst := ((resolverTakesTheFirstMatch Config.platform _).1 r _).2
    ⟨rfl, accepts_encodedImage hin.block_length, hbefore⟩
  refine ⟨_, exec_decode_of_some hEl hE hfirst, rfl, State.holds_complete.2 ?_⟩
  have huser : slice (slice D 0x64 0x100) 0 92 = slice D 0x64 0xC0 := slice_slice D (by decide)
  have himage := decodedImage_encodedImage (cfg := Config.platform) (r := r)
    hin.block_length hin.factory_length hin.userTail_length
  rw [encodedSections, huser, ← factoryChecksum, ← userChecksum] at himage
  rw [himage]
  simpa only [List.append_assoc] using State.holds_writeCells_self u .outBuf 0 _

end Sys2Proof.Machine
end

section
/-! Proofs about errors and faults (60_exceptions.md): the words that are no command, the order of the checks, the ends
a command can have, and the fault mark. -/

namespace Sys2Proof.Machine

/-! ## The ends of a command (R228, 70_reset_and_hazards.md R254) -/

/-- What every successful command leaves: memory, CKSUM and STATUS alone may differ, and STATUS says what R228 says of
the command. -/
def Succeeds (s : State) (i : Instr) (t : State) : Prop :=
  t = { s with mem := t.mem, cksum := t.cksum, status := t.status } ∧
    if i = .decode then
      ∃ raw img r, raw.length = 256 ∧ s.holds .inBuf 0 raw ∧ resolve Config.platform raw = some (img, r) ∧
        t.status = doneStatus (revCode r) .ok
    else t.status = 0x00000F00

theorem succeeds_of_ne_decode {s u : State} {i : Instr} (hi : i ≠ .decode)
    (hu : u = { s with mem := u.mem, cksum := u.cksum }) : Succeeds s i (u.complete rrevNone) := by
  refine ⟨?_, ?_⟩
  · rw [hu]
    rfl
  · rw [if_neg hi]
    exact doneStatus_none_ok

/-- Everything a command can do, with the STATUS of its success. -/
theorem exec_ends {i : Instr} {s t : State} (h : exec i s = .next t) : CommandEnd s (Succeeds s i) t := by
  cases i with
  | nop =>
    cases h
    exact commandEnd_done (succeeds_of_ne_decode (by simp) rfl)
  | cksum src off len =>
    cases h
    refine (cksumResult_cases src off len s).mono ?_
    rintro ⟨B, -, -, -, ht⟩
    exact ht ▸ succeeds_of_ne_decode (by simp) rfl
  | khash rev src off len =>
    cases h
    refine (khashResult_cases Config.platform rev src off len s).mono ?_
    rintro ⟨r, m, -, -, -, -, ht⟩
    exact ht ▸ succeeds_of_ne_decode (by simp) rfl
  | rc4x src off len =>
    cases h
    refine (rc4xResult_cases src off len s).mono ?_
    rintro ⟨key, D, -, -, -, -, -, ht⟩
    exact ht ▸ succeeds_of_ne_decode (by simp) rfl
  | decode =>
    cases h
    refine (decodeResult_cases Config.platform s).mono ?_
    rintro ⟨raw, r, hl, hraw, hres, ht⟩
    rw [ht]
    exact ⟨rfl, raw, _, r, hl, hraw, hres, rfl⟩
  | encode rev =>
    cases h
    refine (encodeResult_cases Config.platform rev s).mono ?_
    rintro ⟨r, block, factory, userTail, -, -, -, -, -, -, -, ht⟩
    exact ht ▸ succeeds_of_ne_decode (by simp) rfl

/-- Settles O36: the three ends of every command, a success with the STATUS of `Succeeds`. -/
theorem everyCommandFaultsReportsOrSucceeds : Obligations.EveryCommandFaultsReportsOrSucceeds := by
  intro i s
  obtain ⟨t, ht⟩ := exists_exec i s
  refine ⟨t, ht, ?_⟩
  rcases exec_ends ht with ⟨e, he, rfl⟩ | ⟨b, k, rfl⟩ | hs
  · exact .inr (.inl ⟨e, he, rfl⟩)
  · exact .inl ⟨b, k, rfl⟩
  · exact .inr (.inr hs)

/-! ## Words that are no command (R222) -/

theorem exists_ite_ok_eq_error {ε α : Type} {p : Prop} [Decidable p] {a : α} {e : ε} :
    (∃ e', (if p then Except.ok a else .error e) = .error e') ↔ ¬p := by
  split <;> simp [*]

theorem fieldOp_cases {v : Word} (h : (fieldOp v).toNat < 6) :
    fieldOp v = 0 ∨ fieldOp v = 1 ∨ fieldOp v = 2 ∨ fieldOp v = 3 ∨ fieldOp v = 4 ∨ fieldOp v = 5 := by
  bv_omega

/-- The decoder refuses what checks 1 to 3 of R227 refuse. -/
theorem decodeWord_refuses_iff {v : Word} :
    (∃ e, decodeWord v = .error e) ↔
      6 ≤ (fieldOp v).toNat ∨ fieldRsv v ≠ 0 ∨ unusedFieldSet v = true := by
  by_cases hbig : 6 ≤ (fieldOp v).toNat
  · exact iff_of_true ⟨_, by rw [decodeWord, if_pos hbig]⟩ (.inl hbig)
  by_cases hrsv : fieldRsv v = 0
  · rcases fieldOp_cases (Nat.lt_of_not_le hbig) with h | h | h | h | h | h <;>
      simp [decodeWord, unusedFieldSet, h, hrsv, exists_ite_ok_eq_error, imp_iff_not_or, or_assoc]
  · exact iff_of_true ⟨_, by rw [decodeWord, if_neg hbig, if_pos hrsv]⟩ (.inr (.inl hrsv))

/-- The bits above OP are the other fields (30_encoding.md R81). -/
theorem bitsAboveOp_eq_zero_iff {v : Word} (hrsv : fieldRsv v = 0) :
    v.extractLsb' 8 24 = 0 ↔ fieldRev v = 0 ∧ fieldSrc v = 0 ∧ fieldOff v = 0 ∧ fieldLen v = 0 := by
  simp only [fieldRsv, fieldRev, fieldSrc, fieldOff, fieldLen, ← BitVec.toNat_inj, BitVec.extractLsb'_toNat,
    Nat.shiftRight_eq_div_pow, BitVec.ofNat_eq_ofNat, BitVec.toNat_ofNat] at hrsv ⊢
  omega

/-- The bits above REV are the fields SRC, RSV, OFF and LEN (30_encoding.md R81). -/
theorem bitsAboveRev_eq_zero_iff {v : Word} (hrsv : fieldRsv v = 0) :
    v.extractLsb' 12 20 = 0 ↔ fieldSrc v = 0 ∧ fieldOff v = 0 ∧ fieldLen v = 0 := by
  simp only [fieldRsv, fieldSrc, fieldOff, fieldLen, ← BitVec.toNat_inj, BitVec.extractLsb'_toNat,
    Nat.shiftRight_eq_div_pow, BitVec.ofNat_eq_ofNat, BitVec.toNat_ofNat] at hrsv ⊢
  omega

/-- Check 3 of R227 over the bits of the word, where check 2 passes. -/
theorem unusedFieldSet_iff {v : Word} (hop : (fieldOp v).toNat < 6) (hrsv : fieldRsv v = 0) :
    unusedFieldSet v = true ↔
      ((fieldOp v = 0 ∨ fieldOp v = 4) ∧ v.extractLsb' 8 24 ≠ 0) ∨
      ((fieldOp v = 1 ∨ fieldOp v = 3) ∧ fieldRev v ≠ 0) ∨ (fieldOp v = 5 ∧ v.extractLsb' 12 20 ≠ 0) := by
  rw [ne_eq, bitsAboveOp_eq_zero_iff hrsv, ne_eq (v.extractLsb' 12 20), bitsAboveRev_eq_zero_iff hrsv]
  rcases fieldOp_cases hop with h | h | h | h | h | h <;> simp [unusedFieldSet, h, imp_iff_not_or, or_assoc]

theorem step_of_refused {v : Word} {e : DecodeError} {s : State} (hdue : s.blockDue) (hv : s.pending = some v)
    (he : decodeWord v = .error e) : step s = .next (s.report .illegalCommand) :=
  (step_of_blockDue hdue).trans (blockStep_of_illegal hv he)

/-- Settles O5: R222's reasons are checks 1 to 3 of R227, which the decoder makes. -/
theorem illegalWordsAreReported : Obligations.IllegalWordsAreReported := by
  intro v illegal
  have hrefused : illegal ↔ ∃ e, decodeWord v = .error e := by
    rw [decodeWord_refuses_iff]
    exact or_congr_right' fun hop => or_congr_right' fun hrsv =>
      (unusedFieldSet_iff (Nat.lt_of_not_le hop) (not_not.1 hrsv)).symm
  refine ⟨hrefused, fun s hdue hv hill => ?_⟩
  obtain ⟨e, he⟩ := hrefused.1 hill
  exact step_of_refused hdue hv he

/-! ## The order of the checks (R227) -/

theorem validate_of_refused {v : Word} {e : DecodeError} (h : decodeWord v = .error e) :
    validate v = .illegalCommand := by
  rcases decodeWord_refuses_iff.1 ⟨e, h⟩ with hop | hrsv | hunused
  · rw [validate, if_pos hop]
  · rw [validate, if_pos hrsv, ite_self]
  · rw [validate, if_pos hunused, ite_self, ite_self]

theorem validate_cksum (src : Src) (off len : BitVec 8) :
    validate (encodeWord (.cksum src off len)) =
      if off.toNat % 4 ≠ 0 ∨ len.toNat % 4 ≠ 0 then .align
      else if 256 < off.toNat + len.toNat then .range else .ok := by
  simp [validate, unusedFieldSet, encodeWord]

theorem validate_khash (rev : BitVec 4) (src : Src) (off len : BitVec 8) :
    validate (encodeWord (.khash rev src off len)) =
      if 4 ≤ rev.toNat then .unsupportedRevision else if 256 < off.toNat + len.toNat then .range else .ok := by
  simp [validate, unusedFieldSet, encodeWord]

theorem validate_rc4x (src : Src) (off len : BitVec 8) :
    validate (encodeWord (.rc4x src off len)) = if 256 < off.toNat + len.toNat then .range else .ok := by
  simp [validate, unusedFieldSet, encodeWord]

theorem validate_encode (rev : BitVec 4) :
    validate (encodeWord (.encode rev)) = if 4 ≤ rev.toNat then .unsupportedRevision else .ok := by
  simp [validate, unusedFieldSet, encodeWord]

/-- The error `e` that the checks find is the one the command reports; with none found the command is well formed. -/
structure ChecksAgree (i : Instr) (e : Err) (s : State) : Prop where
  reports : e ≠ .ok → exec i s = .next (s.report e)
  wellFormed : e = .ok → i.wellFormed = true

theorem ChecksAgree.of_reports {i : Instr} {e : Err} {s : State} (he : e ≠ .ok)
    (h : exec i s = .next (s.report e)) : ChecksAgree i e s :=
  ⟨fun _ => h, fun hok => absurd hok he⟩

theorem ChecksAgree.of_wellFormed {i : Instr} {s : State} (h : i.wellFormed = true) : ChecksAgree i .ok s :=
  ⟨fun hne => absurd rfl hne, fun _ => h⟩

/-- Checks 4 to 6 of `Validate` are the ones the command itself makes, in the same order. -/
theorem checksAgree_validate (i : Instr) (s : State) : ChecksAgree i (validate (encodeWord i)) s := by
  cases i with
  | nop => exact .of_wellFormed rfl
  | cksum src off len =>
    rw [validate_cksum]
    split_ifs with halign hrange
    · exact .of_reports (by decide) ((cksumReportsAlignThenRange src off len s).1 halign)
    · obtain ⟨hoff, hlen⟩ : off.toNat % 4 = 0 ∧ len.toNat % 4 = 0 := by omega
      exact .of_reports (by decide) ((cksumReportsAlignThenRange src off len s).2 ⟨hoff, hlen, hrange⟩)
    · refine .of_wellFormed ?_
      simp only [Instr.wellFormed, Bool.and_eq_true, alignOk_iff, rangeOk_iff]
      omega
  | khash rev src off len =>
    rw [validate_khash]
    split_ifs with hrev hrange
    · exact .of_reports (by decide) ((khashReportsRevisionThenRange rev src off len s).1 hrev)
    · exact .of_reports (by decide) ((khashReportsRevisionThenRange rev src off len s).2 ⟨by omega, hrange⟩)
    · refine .of_wellFormed ?_
      simp only [Instr.wellFormed, Bool.and_eq_true, Instr.revOk, decide_eq_true_eq, rangeOk_iff]
      omega
  | rc4x src off len =>
    rw [validate_rc4x]
    split_ifs with hrange
    · exact .of_reports (by decide) (rc4xReportsRange src off len s hrange)
    · exact .of_wellFormed (rangeOk_iff.2 (by omega))
  | decode => exact .of_wellFormed rfl
  | encode rev =>
    rw [validate_encode]
    split_ifs with hrev
    · exact .of_reports (by decide) (encodeRejectsUnsupportedRevision rev s hrev)
    · exact .of_wellFormed (decide_eq_true (by omega))

/-- Settles O6: the decoder makes checks 1 to 3 and the command it decodes makes checks 4 to 6. -/
theorem validationOrderIsTheStepsOrder : Obligations.ValidationOrderIsTheStepsOrder := by
  intro v s hdue hv
  cases hd : decodeWord v with
  | error e =>
    rw [validate_of_refused hd]
    exact ⟨fun _ => step_of_refused hdue hv hd, nofun⟩
  | ok i =>
    have hstep : step s = exec i s := stepRunsTheDecodedCommand s v i hdue hv hd
    obtain ⟨hreports, hwf⟩ := checksAgree_validate i s
    rw [encodeOfDecodeIsIdentity v i hd] at hreports hwf
    exact ⟨fun hne => hstep.trans (hreports hne), fun hok => ⟨i, rfl, hwf hok, hstep⟩⟩

/-! ## The fault mark (R231) -/

theorem step_of_faulted {s : State} {f : Fault} (hf : s.fault = some f) (hno : HostAction.reset ∉ s.hostQueue) :
    step s = .fault f := by
  simp only [step, agentsStep, hf, afterReset_eq_none.2 hno]

/-- Settles O9: of the kinds of step, only reset after a fault does not ask for a clear mark. -/
theorem faultMarkStopsAllButReset : Obligations.FaultMarkStopsAllButReset := by
  intro s f hf
  have hmark : s.fault ≠ none := by simp [hf]
  refine ⟨fun ⟨_, _, hclear⟩ => hmark hclear, step_of_faulted hf, fun t ht => ?_⟩
  cases step_cases ht with
  | resetAfterFault _ q _ hq => exact ⟨reset_mem_of_afterReset hq, q, rfl⟩
  | idle h => exact absurd h.2.2 hmark
  | illegal h => exact absurd h.1 hmark
  | command _ h => exact absurd h.1 hmark
  | host _ _ h => exact absurd h.1 hmark

end Sys2Proof.Machine
end

section
/-! Proofs about reset and waiting (70_reset_and_hazards.md): what reset leaves, the invariant at reset, the poll of a
busy machine, and the idle machine. -/

namespace Sys2Proof.Machine

/-! ## Reset (R250) -/

/-- From a faulted state the step is the next reset of the queue, if there is one (log 6). -/
theorem step_of_faulted_of_reset {s : State} {f : Fault} {q : List HostAction} (hf : s.fault = some f)
    (hq : afterReset s.hostQueue = some q) : step s = .next (s.assertReset q) := by
  simp only [step, agentsStep, hf, hq]

/-- Settles O10: with the mark set reset is the one step left, without it reset is the host's due action. -/
theorem resetSetsEveryPieceOfState : Obligations.ResetSetsEveryPieceOfState := by
  refine ⟨Memory.get?_nil, rfl, rfl, rfl, rfl, fun s rest hq hturn => ?_⟩
  have hstep : step s = .next (s.assertReset rest) := by
    cases hf : s.fault with
    | some f => exact step_of_faulted_of_reset hf (by rw [hq, afterReset])
    | none => exact step_of_hostDue (a := .reset) ⟨hf, hq, hturn.resolve_left (absurd hf)⟩
  exact ⟨_, hstep, Memory.get?_nil, rfl, rfl, rfl, rfl, rfl⟩

/-- The state after reset is what asserting reset makes of itself. -/
theorem State.reset_eq_assertReset : State.reset = State.reset.assertReset [] := rfl

/-- Settles O40: asserting reset establishes the invariant from any state. -/
theorem resetHasTheInvariant : Obligations.ResetHasTheInvariant := by
  unfold Obligations.ResetHasTheInvariant
  rw [State.reset_eq_assertReset]
  exact .assertReset State.reset []

/-! ## Waiting (R255, R257, R260) -/

/-- Settles O11: the polls the latency leaves use up `delay` and touch nothing else but the reads. -/
theorem pollWaitsUntilTheBlockIsDue : Obligations.PollWaitsUntilTheBlockIsDue :=
  fun _ _ hf hb hq => ⟨_, run_poll_delay hf hb hq rfl, ⟨hf, hb, .inr rfl⟩, hq, rfl, rfl, rfl, rfl, rfl⟩

/-- Settles O8: with the queue empty and BUSY = 0 no agent has a step. -/
theorem idleMachineWaits : Obligations.IdleMachineWaits := by
  rintro s ⟨hq, hidle, hf⟩
  simp [step, agentsStep, hf, hq, hidle]

end Sys2Proof.Machine
end
